-- ==== Sys2Proof/Word.lean ====
section
/-! DEFINITION. The value types of the block: bytes, times, durations, observer identities (00_scope.md R5, R6, R9). -/

namespace Sys2Proof

/-- A byte: 8 bits, numbered 7 (the "top bit") down to 0 (R5 `BYTE_BITS`, R6). -/
abbrev Byte := BitVec 8

/-- Timestamps and deltas: an integer count of an unnamed unit (R5 `Time`, decision D5; log 10). -/
abbrev Time := Int

/-- The length of an armed deadline in seconds, an exact rational (R5 `Duration`, decision D9; log 10). -/
abbrev Duration := Rat

/-- The identity of an observer (R5 `ObserverId`: any type with decidable equality; log 9). -/
abbrev ObserverId := Nat

end Sys2Proof
end

