-- ==== Sys2Proof/Config.lean ====
section
/-! DEFINITION. What is fixed for the life of an instance and left open by the spec: the classifier `K` (R84) and the
delivery order across observers (R193). Both are constants without a body, so no proof can see their values.
The numeric parameters of R5 stand in Machine/Params.lean. -/

namespace Sys2Proof

/-- The classifier interface (30_encoding.md R84): six total predicates on Message bytes, and nothing else of the
out-of-scope MessageType classifier. -/
structure Classifier where
  /-- The bytes are a "send packet immediate" command. -/
  isImmPacket : List Byte → Bool
  /-- The bytes are a "set switch with ack" command. -/
  isSwitchWithAck : List Byte → Bool
  /-- The bytes are the "packet accepted" reply. -/
  isImmAccepted : List Byte → Bool
  /-- The bytes are the "buffer full" reply. -/
  isImmBufferFull : List Byte → Bool
  /-- The bytes are the switch "accepted" reply. -/
  isSwitchAccepted : List Byte → Bool
  /-- The bytes are the switch "rejected" reply. -/
  isSwitchRejected : List Byte → Bool
deriving Inhabited

/-- The exclusivity laws R84 allows a model to assume of `K`. The machine assumes none of them: its tests stand in the
fixed order R159 gives (93 U2). -/
def Classifier.Lawful (K : Classifier) : Prop :=
  ∀ bs, ¬(K.isImmPacket bs = true ∧ K.isSwitchWithAck bs = true) ∧
    ¬(K.isImmAccepted bs = true ∧ K.isImmBufferFull bs = true) ∧
    ¬(K.isSwitchAccepted bs = true ∧ K.isSwitchRejected bs = true)

/-- The instance's classifier, fixed before reset (R84, R232; decision D16; log 8). -/
opaque Config.K : Classifier

/-- FREE VALUE (R193, 93 U7; log 7): for delivery number `draw`, the place among `n` already placed observers where the
next one goes. Any value is allowed; a place past the end means last. -/
opaque Config.deliverSlot (draw n : Nat) : Nat

end Sys2Proof
end

