-- ==== Sys2Proof/Syntax.lean ====
section
/-! DEFINITION. The Message record (10_state.md R21) and the one instruction type: a constructor for each row of
spec/opcode_table.json, wire formats and entry points alike. -/

namespace Sys2Proof

/-- A Message (R21): a frame with its checksum stripped, with its capture time and the time since the previous one. -/
structure Message where
  /-- The ordered bytes, the opcode first; non-empty in a well-formed Message. -/
  bytes : List Byte
  /-- "capture timestamp" -/
  stamp : Time
  /-- "delta from previous message" -/
  delta : Time
deriving DecidableEq, Repr

/-- One constructor per row of spec/opcode_table.json. The first eight are what the bus carries (R70 to R79); the last
seven are the entry points (R80), which have no bit encoding. -/
inductive Instr where
  /-- DATA: a byte with the top bit clear (R77, R121). -/
  | data (value : BitVec 7)
  /-- F2: class `00`, `[opcode][checksum]` (R73). -/
  | f2 (id : BitVec 5) (checksum : Byte)
  /-- F4: class `01`, `[opcode][d1][d2][checksum]` (R74). -/
  | f4 (id : BitVec 5) (d1 d2 checksum : Byte)
  /-- F6: class `10`, `[opcode][d1][d2][d3][d4][checksum]` (R75). -/
  | f6 (id : BitVec 5) (d1 d2 d3 d4 checksum : Byte)
  /-- FV: class `11`, `[opcode][len][d...][checksum]`; `rest` is everything after the length byte (R76). -/
  | fv (id : BitVec 5) (len : Byte) (rest : List Byte)
  /-- The frame `83 7C` (R79). -/
  | powerOn
  /-- The frame `82 7D` (R79). -/
  | powerOff
  /-- The frame `BB 7F 00 3B` (R79). -/
  | getOpSwDataAP1
  /-- `receive(chunk, now)` (R120). -/
  | receive (chunk : List Byte) (now : Time)
  /-- `enqueue(m)` (R156). -/
  | enqueue (m : Message)
  /-- `timerExpiry()` (R158). -/
  | timerExpiry
  /-- `detach()` (R168). -/
  | detach
  /-- `addObserver(o)` (R190). -/
  | addObserver (o : ObserverId)
  /-- `removeObserver(o)` (R191). -/
  | removeObserver (o : ObserverId)
  /-- `reset()` (R230). -/
  | reset
deriving DecidableEq, Repr

end Sys2Proof
end

