-- ==== Sys2Proof/Machine/State.lean ====
section
/-! DEFINITION. The architectural state (10_state.md), the output events (R81), the environment's schedule, and the ways a
step can stop. Plain data throughout. -/

namespace Sys2Proof.Machine

/-- The wait-state tag of an in-flight send: the three tags of `st` other than `idle` (R26, R150). -/
inductive Wait where
  /-- Transmitted, its echo not yet seen. -/
  | sending
  /-- A "send packet immediate" command, echo seen, reply awaited. -/
  | awaitingDigitalPacketAck
  /-- A "set switch with ack" command, echo seen, reply awaited. -/
  | awaitingSwitchAck
deriving DecidableEq, Repr

/-- The wait-state tag `st` as R26 lists it. -/
inductive St where
  | idle
  | sending
  | awaitingDigitalPacketAck
  | awaitingSwitchAck
deriving DecidableEq, Repr

/-- SGL's In-Flight Send (R10): the active entry, the retry counter and the wait-state tag. `retry` lives here because it
holds no value while `st` is `idle` (R28, decision D23; log 11). -/
structure InFlight where
  /-- `cur`: the Message removed from the head of the queue (R27). -/
  cur : Message
  /-- `retry`: the retry budget (R28). -/
  retry : Int
  /-- `st`, not `idle` while this record exists (R26). -/
  wait : Wait
deriving DecidableEq, Repr

/-- The output events (R81). -/
inductive OutEvent where
  | transmit (f : List Byte)
  | arm (d : Duration)
  | cancel
  | deliver (o : ObserverId) (m : Message)
deriving DecidableEq, Repr

/-- What the environment does next: the MODEL's own type, for the schedule the step reads (log 1). -/
inductive Input where
  /-- Bytes on the bus that the transport has not handed over, with the clock sample they are handed over at. -/
  | wire (now : Time) (bytes : List Byte)
  /-- One invocation of an entry point, alone (R56, R80). -/
  | call (i : Instr)
  /-- Operations of one instance overlapping in time (93 U1, R234). -/
  | overlapped (ops : List Instr)
  /-- An entry point invoked from inside an output event of `op` (93 U3, R194, R242). -/
  | reentrant (op inner : Instr)
deriving DecidableEq, Repr

/-- The state: the spec's eight elements (R20; `st`, `cur`, `retry` inside `inFlight`), then the model's own fields. -/
structure State where
  /-- The input buffer, oldest byte first (R23). -/
  buf : List Byte
  /-- The stamp of the most recently emitted Message (R24). -/
  lastStamp : Option Time
  /-- The outbound queue, head first (R25). -/
  queue : List Message
  /-- `cur`, `retry` and `st`: `none` is `st = idle` (R26 to R28; log 11). -/
  inFlight : Option InFlight
  /-- The armed deadline (R29). -/
  deadline : Option Duration
  /-- The registered observers, a finite set kept as a strictly rising list (R30; log 9). -/
  observers : List ObserverId
  /-- MODEL: every output event so far, oldest first (R58). A ghost: no rule reads it (R31; log 6). -/
  trace : List OutEvent
  /-- MODEL: what the environment does from here on (log 1). -/
  inputs : List Input
  /-- MODEL: the clock sample that goes with a frame presented on the bus (R211; log 3). -/
  clock : Time
  /-- MODEL: how many delivery orders have been drawn (log 7). -/
  draws : Nat
deriving DecidableEq, Repr

/-- The block raises no exception, takes no trap and never stops (60_exceptions.md R200): there is no fault, so nobody
raises one, which is safe. -/
inductive Fault where
deriving DecidableEq, Repr

/-- The step answers a refusal only where the spec gives the situation no behaviour (93 U1, U3). -/
inductive Refusal where
  /-- Raised by exec for an instruction without a meaning yet. Safe: the machine stops. No instruction is left so. -/
  | notModelled (mnemonic : String)
  /-- Raised by the step on `Input.overlapped`: entry points not serialised (U1, R59, R234). Safe: the machine stops. -/
  | notSerialised
  /-- Raised by the step on `Input.reentrant`: a call from inside an output event (U3, R194, R242). Safe: the machine
  stops. -/
  | reentrantCall
deriving DecidableEq, Repr

/-- The tag of an in-flight record as a value of `st`. -/
def Wait.toSt : Wait → St
  | .sending => .sending
  | .awaitingDigitalPacketAck => .awaitingDigitalPacketAck
  | .awaitingSwitchAck => .awaitingSwitchAck

/-- The element `st` (R26). -/
def State.st (s : State) : St :=
  match s.inFlight with
  | none => .idle
  | some f => f.wait.toSt

/-- The element `cur` (R27). -/
def State.cur (s : State) : Option Message := s.inFlight.map InFlight.cur

/-- The element `retry` (R28): no value while `st` is `idle`. -/
def State.retry (s : State) : Option Int := s.inFlight.map InFlight.retry

/-- The state right after reset: R35, R230 for the spec's elements; the model's own fields as logs 1, 3, 6, 7 say. -/
def State.reset : State where
  buf := []
  lastStamp := none
  queue := []
  inFlight := none
  deadline := none
  observers := []
  trace := []
  inputs := []
  clock := 0
  draws := 0

end Sys2Proof.Machine
end

