-- ==== Sys2Proof/Machine/Flags.lean ====
section
/-! DEFINITION. The block has no status flags, condition codes or sticky error bits (10_state.md R31). The one condition
the send machine computes is the class of the in-flight command (42_send_fsm.md R151). -/

namespace Sys2Proof.Machine

/-- The classes of command the echo rule tells apart (R151). -/
inductive CmdClass where
  | ordinary
  | imm
  | switchAck
deriving DecidableEq, Repr

/-- R151: `isImmPacket` is tested first. -/
def cmdClass (K : Classifier) (bs : List Byte) : CmdClass :=
  if K.isImmPacket bs then .imm
  else if K.isSwitchWithAck bs then .switchAck
  else .ordinary

end Sys2Proof.Machine
end

