-- ==== Sys2Proof/Machine/Params.lean ====
section
/-! DEFINITION. The fixed parameters of the block (00_scope.md R5), each at the value the spec gives it. -/

namespace Sys2Proof.Machine

/-- `LEN_00`: frame length of class `00`. -/
def len00 : Nat := 2

/-- `LEN_01`: frame length of class `01`. -/
def len01 : Nat := 4

/-- `LEN_10`: frame length of class `10`. -/
def len10 : Nat := 6

/-- `LEN_ZERO_MEANS`: frame length when the length byte of class `11` is 0. -/
def lenZeroMeans : Nat := 128

/-- `CKS_SEED`: start value of the XOR fold. -/
def cksSeed : Byte := 0xFF

/-- `RETRY_INIT`: the budget set on dequeue and on a "buffer full" or "rejected" reply. -/
def retryInit : Int := 10

/-- `BITS_PER_BYTE_ON_WIRE`: factor of the timeout formula. -/
def bitsPerByteOnWire : Duration := 10

/-- `BUS_RATE`: divisor of the timeout formula, bit/s. -/
def busRate : Duration := 16660

/-- `SAFETY_FACTOR`: factor of the timeout formula. -/
def safetyFactor : Duration := 3

/-- `SHORT_BYTECOUNT`: `byteCount` of the short ack-wait timeout. -/
def shortByteCount : Nat := 4

/-- `FIRST_DELTA`: `delta` of the first Message after reset (decision D6). -/
def firstDelta : Time := 0

/-- `MAX_FRAME`: the largest frame length step 2 can produce (length byte `0xFF`). -/
def maxFrame : Nat := 255

end Sys2Proof.Machine
end

