-- ==== Sys2Proof/Machine/Checksum.lean ====
section
/-! DEFINITION. The XOR checksum and the two Message construction paths (40_checksum.md R100 to R105). -/

namespace Sys2Proof.Machine

/-- The XOR fold of a byte list from a given seed (R7 `fold`). -/
def xorFold (seed : Byte) (bs : List Byte) : Byte := bs.foldl (· ^^^ ·) seed

/-- R100: the fold from `0xFF`. -/
def checksum (bs : List Byte) : Byte := xorFold cksSeed bs

/-- R101. -/
def appendChecksum (bs : List Byte) : List Byte := bs ++ [checksum bs]

/-- R102: the fold of the whole frame from `0xFF` is 0. -/
def isChecksumOK (f : List Byte) : Bool := xorFold cksSeed f == 0

/-- R103: the frame without its last byte; no validation. On the empty list, where R103 does not define it and to which no
rule applies it, it is the empty list: DESIGN CHOICE (log 18). -/
def stripChecksum (f : List Byte) : List Byte := f.dropLast

/-- R104: construction from checksum-free bytes; no validation. -/
def mkMessage (bs : List Byte) (stamp delta : Time) : Message := { bytes := bs, stamp := stamp, delta := delta }

/-- R105: construction from a frame with checksum: validates, strips, answers no value on a mismatch or on fewer than
two bytes (decision D3). -/
def mkMessageFromFrame (f : List Byte) (stamp delta : Time) : Option Message :=
  if 2 ≤ f.length ∧ isChecksumOK f = true then some (mkMessage (stripChecksum f) stamp delta) else none

end Sys2Proof.Machine
end

