-- ==== Sys2Proof/Machine/Operands.lean ====
section
/-! DEFINITION. The operand forms: the durations that guard a transmission and a reply (42_send_fsm.md R152, R153), the
Message the reassembler builds (R127), the Messages of the three factories with known bytes (R79, R86). The other
operands are a chunk, a Message, an observer identity, taken as they are (R80). -/

namespace Sys2Proof.Machine

/-- The timeout formula `byteCount * 10 / 16660 * 3`, exact rational seconds (R152, decision D9). -/
def timeout (byteCount : Nat) : Duration := (byteCount : Duration) * bitsPerByteOnWire / busRate * safetyFactor

/-- The bytes handed to `transmit`, the checksum counted (R152, decision D8). -/
def byteCount (m : Message) : Nat := m.bytes.length + 1

/-- `LongTimeout(m)` (R152). -/
def longTimeout (m : Message) : Duration := timeout (byteCount m)

/-- `ShortTimeout` (R153). -/
def shortTimeout : Duration := timeout shortByteCount

/-- The inter-message delta (R127; decision D6 for the first one). -/
def deltaFrom (lastStamp : Option Time) (now : Time) : Time :=
  match lastStamp with
  | none => firstDelta
  | some t => now - t

/-- The Message of a good frame: checksum stripped, stamped `now`, with the inter-message delta (R127). -/
def decodedMessage (f : List Byte) (lastStamp : Option Time) (now : Time) : Message :=
  mkMessage (stripChecksum f) now (deltaFrom lastStamp now)

/-- What the factory `powerOn()` hands its caller (R79, R86). The time fields are the caller's business (R104). -/
def factoryPowerOn (stamp delta : Time) : Message := mkMessage [0x83] stamp delta

/-- What the factory `powerOff()` hands its caller (R79, R86). -/
def factoryPowerOff (stamp delta : Time) : Message := mkMessage [0x82] stamp delta

/-- What the factory `getOpSwDataAP1()` hands its caller (R79, R86). -/
def factoryGetOpSwDataAP1 (stamp delta : Time) : Message := mkMessage [0xBB, 0x7F, 0x00] stamp delta

end Sys2Proof.Machine
end

