-- ==== Sys2Proof/Machine/Ops.lean ====
section
/-! DEFINITION. The shared operations of the send machine and the fan-out (42_send_fsm.md R154 to R167, 43_observers.md
R190 to R193). There is no exception entry or return among them: the block takes no trap (60_exceptions.md R200, R212).
The classifier is an argument `K`, so that a claim can be made for every classifier; exec gives it Config.K. -/

namespace Sys2Proof.Machine

/-- `emit X`: append an output event to the trace (R8, R58). -/
def emit (e : OutEvent) (s : State) : State := { s with trace := s.trace ++ [e] }

/-- `Arm(d)` (R154): supersedes any earlier deadline without a `cancel` (decision D25). -/
def arm (d : Duration) (s : State) : State := emit (.arm d) { s with deadline := some d }

/-- `Cancel()` (R154): nothing when nothing is armed. -/
def cancel (s : State) : State :=
  match s.deadline with
  | none => s
  | some _ => emit .cancel { s with deadline := none }

/-- `Transmit(m)` (R154). -/
def transmit (m : Message) (s : State) : State := emit (.transmit (appendChecksum m.bytes)) s

/-- `Arm(LongTimeout(m)); Transmit(m)`, the pair that sends a frame (R155, R158, R159). -/
def armAndTransmit (m : Message) (s : State) : State := transmit m (arm (longTimeout m) s)

/-- `StartNext()` (R155). -/
def startNext (s : State) : State :=
  match s.inFlight, s.queue with
  | none, m :: rest =>
    armAndTransmit m { s with queue := rest, inFlight := some { cur := m, retry := retryInit, wait := .sending } }
  | none, [] => s
  | some _, _ => s

/-- `Complete()` (R157). -/
def complete (s : State) : State := startNext (cancel { s with inFlight := none })

/-- `Resend()` (R159) on the in-flight record `f`: the budget is refilled, `st` stays (R164, R166; decision D10). -/
def resend (f : InFlight) (s : State) : State :=
  armAndTransmit f.cur { s with inFlight := some { f with retry := retryInit } }

/-- `Echo()` (R159 to R162) on the in-flight record `f`. -/
def echo (K : Classifier) (f : InFlight) (s : State) : State :=
  match cmdClass K f.cur.bytes with
  | .ordinary => complete s
  | .imm => arm shortTimeout { s with inFlight := some { f with wait := .awaitingDigitalPacketAck } }
  | .switchAck => arm shortTimeout { s with inFlight := some { f with wait := .awaitingSwitchAck } }

/-- The reply half of `AckMatch(m)` (R159, R163 to R167), for a Message that is not the echo of `f`. -/
def matchReply (K : Classifier) (m : Message) (f : InFlight) (s : State) : State :=
  match f.wait with
  | .awaitingDigitalPacketAck =>
    if K.isImmAccepted m.bytes then complete s
    else if K.isImmBufferFull m.bytes then resend f s
    else s
  | .awaitingSwitchAck =>
    if K.isSwitchAccepted m.bytes then complete s
    else if K.isSwitchRejected m.bytes then resend f s
    else s
  | .sending => s

/-- `AckMatch(m)` (R159): nothing in flight, else the echo test, else the reply. -/
def ackMatch (K : Classifier) (m : Message) (s : State) : State :=
  match s.inFlight with
  | none => s
  | some f => if m.bytes = f.cur.bytes then echo K f s else matchReply K m f s

/-- The fired deadline's effect on the in-flight record `f` (R158 (a), (c) to (e)): decrement, then test. -/
def expire (f : InFlight) (s : State) : State :=
  if f.retry - 1 < 0 then startNext { s with inFlight := none }
  else armAndTransmit f.cur { s with inFlight := some { f with retry := f.retry - 1 } }

/-- Put `x` at a place of a list; a place past the end means last. -/
def insertAt {α : Type} (x : α) : List α → Nat → List α
  | [], _ => [x]
  | y :: ys, 0 => x :: y :: ys
  | y :: ys, n + 1 => y :: insertAt x ys n

/-- A list in the order the places `slot` give: each element is put among those behind it at the place drawn for it.
Every order of the list is the one some `slot` gives (Laws/Ops.lean). -/
def arrange {α : Type} (slot : Nat → Nat) : List α → List α
  | [] => []
  | x :: xs => insertAt x (arrange slot xs) (slot xs.length)

/-- `Deliver(m)` (R192): one `deliver` for each registered observer, in an order drawn afresh (R193; log 7). -/
def deliver (m : Message) (s : State) : State :=
  { s with
    trace := s.trace ++ (arrange (Config.deliverSlot s.draws) s.observers).map fun o => .deliver o m
    draws := s.draws + 1 }

/-- Put an identity into a strictly rising list. -/
def insertId (o : ObserverId) : List ObserverId → List ObserverId
  | [] => [o]
  | x :: xs => if o < x then o :: x :: xs else x :: insertId o xs

/-- `observers ∪ {o}` (R190): nothing when `o` is there already (decision D17). -/
def addId (o : ObserverId) (os : List ObserverId) : List ObserverId := if o ∈ os then os else insertId o os

/-- `observers \ {o}` (R191). -/
def removeId (o : ObserverId) (os : List ObserverId) : List ObserverId := os.filter fun x => x ≠ o

/-- The canonical form of the observer set: strictly rising, so equal sets are equal lists (log 9). -/
abbrev RisingIds (os : List ObserverId) : Prop := os.Pairwise (· < ·)

end Sys2Proof.Machine
end

