-- ==== Sys2Proof/Machine/Observers.lean ====
section
/-! DEFINITION. Observer registration (43_observers.md R190, R191). -/

namespace Sys2Proof.Machine

/-- `addObserver(o)` (R190). -/
def execAddObserver (o : ObserverId) (s : State) : Host.Outcome State Fault Refusal :=
  .next { s with observers := addId o s.observers }

/-- `removeObserver(o)` (R191). -/
def execRemoveObserver (o : ObserverId) (s : State) : Host.Outcome State Fault Refusal :=
  .next { s with observers := removeId o s.observers }

end Sys2Proof.Machine
end

