-- ==== Sys2Proof/Machine/Reset.lean ====
section
/-! DEFINITION. The operation `reset()` (70_reset_and_hazards.md R230). -/

namespace Sys2Proof.Machine

/-- `reset()` (R230): every element of R20 at its reset value, a `cancel` only if a deadline was armed. What the
environment holds (`inputs`, `clock`), the ghost trace and the count of draws are no elements of the block and stay. -/
def execReset (s : State) : Host.Outcome State Fault Refusal :=
  .next (cancel { s with buf := [], lastStamp := none, queue := [], inFlight := none, observers := [] })

end Sys2Proof.Machine
end

