-- ==== Sys2Proof/Machine/SendMachine.lean ====
section
/-! DEFINITION. The entry points of the send / retry / acknowledgement machine (42_send_fsm.md R156, R158, R168). -/

namespace Sys2Proof.Machine

/-- `enqueue(m)` (R156): no check, no capacity limit (decision D15). -/
def execEnqueue (m : Message) (s : State) : Host.Outcome State Fault Refusal :=
  .next (startNext { s with queue := s.queue ++ [m] })

/-- `timerExpiry()` (R158): ignored when nothing is armed (decision D13). An armed deadline with nothing in flight, which
R32 item 2 rules out, has no budget to decrement: the deadline has fired and nothing else happens (log 11). -/
def execTimerExpiry (s : State) : Host.Outcome State Fault Refusal :=
  match s.deadline, s.inFlight with
  | none, _ => .next s
  | some _, none => .next { s with deadline := none }
  | some _, some f => .next (expire f { s with deadline := none })

/-- `detach()` (R168): `buf`, `lastStamp`, `observers` are not touched (decision D14). -/
def execDetach (s : State) : Host.Outcome State Fault Refusal :=
  .next (cancel { s with queue := [], inFlight := none })

end Sys2Proof.Machine
end

