-- ==== Sys2Proof/Machine/Frame.lean ====
section
/-! DEFINITION. The wire frame: bit fields of the opcode, the length a candidate implies, well-formed frames
(30_encoding.md R70 to R78, R82, R83; 41_reassembler.md R122). -/

namespace Sys2Proof.Machine

/-- The top bit of a byte, bit 7 (R6). -/
def top (b : Byte) : Bool := b.getLsbD 7

/-- No byte of the list has its top bit set ("7-bit-clean", R70, R77). -/
def clean (bs : List Byte) : Bool := bs.all fun b => !top b

/-- The length class, bits 6:5 of the opcode, bit 6 the more significant (R71, R72; decision D1). -/
def lengthClass (b : Byte) : BitVec 2 := b.extractLsb' 5 2

/-- Bits 4:0 of the opcode, which no rule interprets (R71). -/
def idBits (b : Byte) : BitVec 5 := b.extractLsb' 0 5

/-- The frame length a class-`11` length byte denotes: 0 means 128, the byte unmasked otherwise (R76, R122; D2). -/
def lenOfByte (b : Byte) : Nat := if b = 0 then lenZeroMeans else b.toNat

/-- R122 (the normative copy of R83): the length of the frame a candidate heads, checksum included; `none` while a
class-`11` candidate's length byte is not yet buffered. On the empty list, outside its precondition, it is `none`. -/
def frameLength : List Byte → Option Nat
  | [] => none
  | op :: rest =>
    if lengthClass op = 0b00#2 then some len00
    else if lengthClass op = 0b01#2 then some len01
    else if lengthClass op = 0b10#2 then some len10
    else match rest with
      | [] => none
      | len :: _ => some (lenOfByte len)

/-- `WFF(f)`, a well-formed frame (R82). -/
def WFF (f : List Byte) : Bool :=
  decide (2 ≤ f.length) && f.head?.any top && clean f.tail && decide (frameLength f = some f.length) && isChecksumOK f

/-- `WF(bs)`, well-formed Message bytes (R82). -/
def WF (bs : List Byte) : Bool := WFF (appendChecksum bs)

/-- The derived field `opcode` of a Message (R21). -/
def opcode (m : Message) : Option Byte := m.bytes.head?

/-- The derived field `lengthClass` of a Message (R21). -/
def msgLengthClass (m : Message) : Option (BitVec 2) := (opcode m).map lengthClass

end Sys2Proof.Machine
end

