-- ==== Sys2Proof/WellFormed.lean ====
section
/-! DEFINITION. Well-formed instructions: the operand values the encodings of 30_encoding.md give each row. The checksum
byte is not checked here: a frame with a wrong checksum is a frame the block drops (R126), not an ill-formed one. -/

namespace Sys2Proof

/-- An instruction's operands are ones its format has.
A frame's bytes after the opcode have their top bits clear (R77); the bytes of a concrete frame of R79 are that frame,
not an F2 or F4 (log 13); an FV frame has two bytes at least and the length its length byte denotes (R76, R124); a
Message has an opcode byte (R21). The other operands are unconstrained. -/
def Instr.wellFormed : Instr → Bool
  | .data _ => true
  | .f2 id c => Machine.clean [c] && !(id = 0x03#5 && c = 0x7C#8) && !(id = 0x02#5 && c = 0x7D#8)
  | .f4 id d1 d2 c =>
    Machine.clean [d1, d2, c] && !(id = 0x1B#5 && d1 = 0x7F#8 && d2 = 0x00#8 && c = 0x3B#8)
  | .f6 _ d1 d2 d3 d4 c => Machine.clean [d1, d2, d3, d4, c]
  | .fv _ len rest => Machine.clean (len :: rest) && decide (rest.length + 2 = Machine.lenOfByte len)
  | .powerOn => true
  | .powerOff => true
  | .getOpSwDataAP1 => true
  | .receive _ _ => true
  | .enqueue m => !m.bytes.isEmpty
  | .timerExpiry => true
  | .detach => true
  | .addObserver _ => true
  | .removeObserver _ => true
  | .reset => true

end Sys2Proof
end

