-- ==== Sys2Proof/Decode.lean ====
section
/-! DEFINITION. From bytes on the bus to the instruction at their head (30_encoding.md R70 to R79, R83), total, rejecting
by name, and the encoder written from the same tables. The seven entry points have no bit encoding (R80). -/

namespace Sys2Proof

/-- Why no instruction stands whole at the head of a byte list (R78). -/
inductive Reject where
  /-- No byte at all. -/
  | noBytes
  /-- A candidate whose frame length is unknown or not yet satisfied (R123). -/
  | incomplete
  /-- Class `11` with a frame length below 2 (R124). -/
  | shortFrame
  /-- A candidate whose supposed frame holds another byte with its top bit set (R125). -/
  | falseOpcode
deriving DecidableEq, Repr

/-- What the decoder answers: the instruction and the bytes after it, or a rejection by name. -/
inductive Decoded where
  | instr (i : Instr) (rest : List Byte)
  | reject (r : Reject)
deriving DecidableEq, Repr

/-- An opcode byte from its top three bits and its bits 4:0 (R71). -/
def opByte (hi : BitVec 3) (id : BitVec 5) : Byte := hi ++ id

/-- Class `00`, two bytes (R73); `83 7C` and `82 7D` are the concrete frames of R79. -/
def decodeF2 (id : BitVec 5) : List Byte → Decoded
  | c :: rest =>
    if Machine.clean [c] then
      if id = 0x03#5 ∧ c = 0x7C#8 then .instr .powerOn rest
      else if id = 0x02#5 ∧ c = 0x7D#8 then .instr .powerOff rest
      else .instr (.f2 id c) rest
    else .reject .falseOpcode
  | [] => .reject .incomplete

/-- Class `01`, four bytes (R74); `BB 7F 00 3B` is the concrete frame of R79. -/
def decodeF4 (id : BitVec 5) : List Byte → Decoded
  | d1 :: d2 :: c :: rest =>
    if Machine.clean [d1, d2, c] then
      if id = 0x1B#5 ∧ d1 = 0x7F#8 ∧ d2 = 0x00#8 ∧ c = 0x3B#8 then .instr .getOpSwDataAP1 rest
      else .instr (.f4 id d1 d2 c) rest
    else .reject .falseOpcode
  | _ => .reject .incomplete

/-- Class `10`, six bytes (R75). -/
def decodeF6 (id : BitVec 5) : List Byte → Decoded
  | d1 :: d2 :: d3 :: d4 :: c :: rest =>
    if Machine.clean [d1, d2, d3, d4, c] then .instr (.f6 id d1 d2 d3 d4 c) rest
    else .reject .falseOpcode
  | _ => .reject .incomplete

/-- Class `11`, the length in the second byte (R76, R78). -/
def decodeFV (id : BitVec 5) : List Byte → Decoded
  | len :: rest =>
    if rest.length + 2 < Machine.lenOfByte len then .reject .incomplete
    else if Machine.lenOfByte len < 2 then .reject .shortFrame
    else if Machine.clean (len :: rest.take (Machine.lenOfByte len - 2)) then
      .instr (.fv id len (rest.take (Machine.lenOfByte len - 2))) (rest.drop (Machine.lenOfByte len - 2))
    else .reject .falseOpcode
  | [] => .reject .incomplete

/-- The instruction at the head of a byte list. -/
def decode : List Byte → Decoded
  | [] => .reject .noBytes
  | b :: rest =>
    if Machine.top b = false then .instr (.data (b.extractLsb' 0 7)) rest
    else if Machine.lengthClass b = 0b00#2 then decodeF2 (Machine.idBits b) rest
    else if Machine.lengthClass b = 0b01#2 then decodeF4 (Machine.idBits b) rest
    else if Machine.lengthClass b = 0b10#2 then decodeF6 (Machine.idBits b) rest
    else decodeFV (Machine.idBits b) rest

/-- The bytes of an F2 frame (R73). -/
def frameF2 (id : BitVec 5) (c : Byte) : List Byte := [opByte 0b100#3 id, c]

/-- The bytes of an F4 frame (R74). -/
def frameF4 (id : BitVec 5) (d1 d2 c : Byte) : List Byte := [opByte 0b101#3 id, d1, d2, c]

/-- The bytes of an F6 frame (R75). -/
def frameF6 (id : BitVec 5) (d1 d2 d3 d4 c : Byte) : List Byte := [opByte 0b110#3 id, d1, d2, d3, d4, c]

/-- The bytes of an FV frame (R76). -/
def frameFV (id : BitVec 5) (len : Byte) (rest : List Byte) : List Byte := opByte 0b111#3 id :: len :: rest

/-- The DATA byte (R77). -/
def byteData (value : BitVec 7) : Byte := 0#1 ++ value

/-- The wire bytes of `powerOn()` (R79). -/
def framePowerOn : List Byte := [0x83, 0x7C]

/-- The wire bytes of `powerOff()` (R79). -/
def framePowerOff : List Byte := [0x82, 0x7D]

/-- The wire bytes of `getOpSwDataAP1()` (R79). -/
def frameGetOpSwDataAP1 : List Byte := [0xBB, 0x7F, 0x00, 0x3B]

/-- The wire bytes of an instruction the bus carries; `none` for the entry points, which have no encoding (R80). -/
def encode : Instr → Option (List Byte)
  | .data v => some [byteData v]
  | .f2 id c => some (frameF2 id c)
  | .f4 id d1 d2 c => some (frameF4 id d1 d2 c)
  | .f6 id d1 d2 d3 d4 c => some (frameF6 id d1 d2 d3 d4 c)
  | .fv id len rest => some (frameFV id len rest)
  | .powerOn => some framePowerOn
  | .powerOff => some framePowerOff
  | .getOpSwDataAP1 => some frameGetOpSwDataAP1
  | .receive _ _ => none
  | .enqueue _ => none
  | .timerExpiry => none
  | .detach => none
  | .addObserver _ => none
  | .removeObserver _ => none
  | .reset => none

/-- The `n` low bytes of a number, the most significant first: the table writes a frame as one number whose most
significant byte is the opcode (`powerOn` is `0x837C`, bytes `83 7C`; log 12). -/
def tableDigits : Nat → Nat → List Byte
  | 0, _ => []
  | n + 1, w => BitVec.ofNat 8 (w / 256 ^ n) :: tableDigits n w

/-- The bytes of a table word of `nbits` bits as the bus carries them, with zero bytes after it up to the longest
frame length. -/
def tableBytes (nbits w : Nat) : List Byte :=
  tableDigits (nbits / 8) w ++ List.replicate (Machine.maxFrame - nbits / 8) 0

/-- The instruction the decoder reads from an instruction of spec/opcode_table.json whose bits are `w`; `none` where
the table gives the row no bits (the entry points) or the decoder rejects. -/
def decodeTableWord (nbits w : Nat) : Option Instr :=
  if nbits = 0 then none
  else match decode (tableBytes nbits w) with
    | .instr i _ => some i
    | .reject _ => none

end Sys2Proof
end

