-- ==== Sys2Proof/Machine/Reassembler.lean ====
section
/-! DEFINITION. The byte-stream reassembler, operation `receive` (41_reassembler.md R120 to R133). -/

namespace Sys2Proof.Machine

/-- What one pass of the loop of R128 finds at the head of the buffer. -/
inductive Judgement where
  /-- Return: the buffer is empty or its candidate's frame is not all there (R121, R123). -/
  | await
  /-- Consume this many bytes and emit nothing (R121, R124, R125, R126). -/
  | discard (n : Nat)
  /-- A good frame of this many bytes (R127). -/
  | accept (n : Nat)
deriving DecidableEq, Repr

/-- Steps 1 to 4 of one pass (R121 to R126), in the order of R128. Step 1 here discards one byte a pass. -/
def judge (buf : List Byte) : Judgement :=
  match buf with
  | [] => .await
  | b :: rest =>
    if top b = false then .discard 1
    else match frameLength (b :: rest) with
      | none => .await
      | some L =>
        if (b :: rest).length < L then .await
        else if L < 2 then .discard 1
        else if clean (rest.take (L - 1)) = false then .discard 1
        else if isChecksumOK ((b :: rest).take L) = false then .discard L
        else .accept L

/-- Step 5 (R127) on a good frame that has left the buffer: stamp, AckMatch, Deliver. -/
def feed (K : Classifier) (now : Time) (f : List Byte) (s : State) : State :=
  deliver (decodedMessage f s.lastStamp now)
    (ackMatch K (decodedMessage f s.lastStamp now) { s with lastStamp := some now })

/-- The loop of R128, given passes enough: each pass returns or shortens the buffer (R129). -/
def receiveLoop (K : Classifier) (now : Time) : Nat → State → State
  | 0, s => s
  | n + 1, s =>
    match judge s.buf with
    | .await => s
    | .discard k => receiveLoop K now n { s with buf := s.buf.drop k }
    | .accept k => receiveLoop K now n (feed K now (s.buf.take k) { s with buf := s.buf.drop k })

/-- The loop of R128 run until it returns: as many passes as there are bytes are always enough (R129). -/
def drain (K : Classifier) (now : Time) (s : State) : State := receiveLoop K now s.buf.length s

/-- `receive(chunk, now)` (R120, R128) under the classifier `K`. -/
def receiveWith (K : Classifier) (chunk : List Byte) (now : Time) (s : State) : State :=
  drain K now { s with buf := s.buf ++ chunk }

/-- The meaning of `receive(chunk, now)`. -/
def execReceive (chunk : List Byte) (now : Time) (s : State) : Host.Outcome State Fault Refusal :=
  .next (receiveWith Config.K chunk now s)

end Sys2Proof.Machine
end

