-- ==== Sys2Proof/Machine/WireFrames.lean ====
section
/-! DEFINITION. The wire-format rows of the opcode table. Such an instruction is its bytes arriving on the bus: they are
handed to `receive` whole, as one chunk, at the clock sample that goes with them (opcode_table.json "Processing of the
whole frame: rules R120-R128"; log 4). -/

namespace Sys2Proof.Machine

/-- Bytes arriving on the bus at the state's clock sample (R120, R210, R211). -/
def arrive (bytes : List Byte) (s : State) : Host.Outcome State Fault Refusal :=
  .next (receiveWith Config.K bytes s.clock s)

/-- DATA (R77, R121). -/
def execData (value : BitVec 7) (s : State) : Host.Outcome State Fault Refusal := arrive [byteData value] s

/-- F2 (R73). -/
def execF2 (id : BitVec 5) (c : Byte) (s : State) : Host.Outcome State Fault Refusal := arrive (frameF2 id c) s

/-- F4 (R74). -/
def execF4 (id : BitVec 5) (d1 d2 c : Byte) (s : State) : Host.Outcome State Fault Refusal :=
  arrive (frameF4 id d1 d2 c) s

/-- F6 (R75). -/
def execF6 (id : BitVec 5) (d1 d2 d3 d4 c : Byte) (s : State) : Host.Outcome State Fault Refusal :=
  arrive (frameF6 id d1 d2 d3 d4 c) s

/-- FV (R76, R78). -/
def execFV (id : BitVec 5) (len : Byte) (rest : List Byte) (s : State) : Host.Outcome State Fault Refusal :=
  arrive (frameFV id len rest) s

/-- The frame `83 7C` (R79). -/
def execPowerOn (s : State) : Host.Outcome State Fault Refusal := arrive framePowerOn s

/-- The frame `82 7D` (R79). -/
def execPowerOff (s : State) : Host.Outcome State Fault Refusal := arrive framePowerOff s

/-- The frame `BB 7F 00 3B` (R79). -/
def execGetOpSwDataAP1 (s : State) : Host.Outcome State Fault Refusal := arrive frameGetOpSwDataAP1 s

end Sys2Proof.Machine
end

