-- ==== Sys2Proof/Machine/Dispatch.lean ====
section
/-! DEFINITION. The instruction's meaning, one arm per constructor of Instr. -/

namespace Sys2Proof.Machine

/-- What one instruction does. -/
def exec (i : Instr) (s : State) : Host.Outcome State Fault Refusal :=
  match i with
  | .data v => Sys2Proof.Machine.execData v s
  | .f2 id c => Sys2Proof.Machine.execF2 id c s
  | .f4 id d1 d2 c => Sys2Proof.Machine.execF4 id d1 d2 c s
  | .f6 id d1 d2 d3 d4 c => Sys2Proof.Machine.execF6 id d1 d2 d3 d4 c s
  | .fv id len rest => Sys2Proof.Machine.execFV id len rest s
  | .powerOn => Sys2Proof.Machine.execPowerOn s
  | .powerOff => Sys2Proof.Machine.execPowerOff s
  | .getOpSwDataAP1 => Sys2Proof.Machine.execGetOpSwDataAP1 s
  | .receive chunk now => Sys2Proof.Machine.execReceive chunk now s
  | .enqueue m => Sys2Proof.Machine.execEnqueue m s
  | .timerExpiry => Sys2Proof.Machine.execTimerExpiry s
  | .detach => Sys2Proof.Machine.execDetach s
  | .addObserver o => Sys2Proof.Machine.execAddObserver o s
  | .removeObserver o => Sys2Proof.Machine.execRemoveObserver o s
  | .reset => Sys2Proof.Machine.execReset s

end Sys2Proof.Machine
end

