-- ==== Sys2Proof/Machine/Fetch.lean ====
section
/-! DEFINITION. Fetching: the next thing the environment does, read off the schedule (70_reset_and_hazards.md R245;
logs 1, 2, 5, 14). -/

namespace Sys2Proof.Machine

/-- What stands next on the schedule. -/
inductive Fetched where
  /-- Nothing: the block waits (R241). -/
  | wait
  /-- This instruction runs, on this state, from which it has been taken. -/
  | run (i : Instr) (s : State)
  /-- The spec gives the situation no behaviour (93 U1, U3). -/
  | refuse (r : Refusal)
deriving DecidableEq, Repr

/-- The state once a bus item's head has been taken: its clock sample is the one that counts, and what is left of it
stays in front. -/
def takeWire (now : Time) (left : List Byte) (later : List Input) (s : State) : State :=
  { s with clock := now, inputs := if left.isEmpty then later else .wire now left :: later }

/-- A scheduled call is taken whole (R56). Bytes on the bus are cut by the decoder, one instruction at a time; bytes that
hold no whole instruction go to `receive` as they are (R120, R130; log 5). -/
def fetch (s : State) : Fetched :=
  match s.inputs with
  | [] => .wait
  | .call i :: later => .run i { s with inputs := later }
  | .wire now bytes :: later =>
    match decode bytes with
    | .instr i left => .run i (takeWire now left later s)
    | .reject _ => .run (.receive bytes now) (takeWire now [] later s)
  | .overlapped _ :: _ => .refuse .notSerialised
  | .reentrant _ _ :: _ => .refuse .reentrantCall

/-- Put bytes on the bus, in front of whatever else is scheduled, at the state's own clock sample. -/
def presentBytes (bytes : List Byte) (s : State) : State :=
  { s with inputs := .wire s.clock bytes :: s.inputs }

end Sys2Proof.Machine
end

