-- ==== Sys2Proof/Machine/Step.lean ====
section
/-! DEFINITION. One step: fetch the next thing the environment does and run it. -/

namespace Sys2Proof.Machine

/-- One step. With nothing scheduled the block waits and nothing changes (70_reset_and_hazards.md R241; log 2). -/
def step (s : State) : Host.Outcome State Fault Refusal :=
  match fetch s with
  | .wait => .next s
  | .run i t => exec i t
  | .refuse r => .refused r

/-- The state with a table word's bytes put where the step fetches next. -/
def State.withFetchWord (s : State) (nbits w : Nat) : State := presentBytes (tableBytes nbits w) s

end Sys2Proof.Machine
end

