-- ==== Sys2Proof/Safety.lean ====
section
/-! DEFINITION. What counts as a good state and a good run, in the terms the claims use. -/

namespace Sys2Proof.Machine

/-- The buffer is in rest form (10_state.md R33): empty, or headed by a candidate whose frame length is unknown or
exceeds what is buffered. -/
def RestForm (buf : List Byte) : Prop :=
  buf = [] ∨ ∃ b rest, buf = b :: rest ∧ top b = true ∧ ∀ L, frameLength buf = some L → buf.length < L

/-- The invariants of R32 and R33, with the canonical form of the observer set (log 9) and the sign of an armed duration
(R5 `Duration`; log 10). -/
structure Inv (K : Classifier) (s : State) : Prop where
  /-- R32 item 1. -/
  idle_iff_cur : s.st = .idle ↔ s.cur = none
  /-- R32 item 2. -/
  idle_iff_deadline : s.st = .idle ↔ s.deadline = none
  /-- R32 item 3. -/
  idle_queue : s.st = .idle → s.queue = []
  /-- R32 item 4. -/
  retry_range : ∀ f, s.inFlight = some f → 0 ≤ f.retry ∧ f.retry ≤ 10
  /-- R32 item 5, first half. -/
  imm_class : ∀ f, s.inFlight = some f → f.wait = .awaitingDigitalPacketAck → K.isImmPacket f.cur.bytes = true
  /-- R32 item 5, second half. -/
  switch_class : ∀ f, s.inFlight = some f → f.wait = .awaitingSwitchAck →
    K.isImmPacket f.cur.bytes = false ∧ K.isSwitchWithAck f.cur.bytes = true
  /-- R33. -/
  rest : RestForm s.buf
  /-- The observer set is in canonical form. -/
  rising : RisingIds s.observers
  /-- An armed duration is positive. -/
  armed_pos : ∀ d, s.deadline = some d → 0 < d

/-- Every `transmit` of the trace stands directly behind the `arm` of the long timeout for as many bytes (R172). -/
def TransmitsGuarded (tr : List OutEvent) : Prop :=
  ∀ i f, tr[i]? = some (.transmit f) → ∃ j, i = j + 1 ∧ tr[j]? = some (.arm (timeout f.length))

/-- Every Message the trace delivers is one the reassembler may emit (R133). -/
def DeliversWellFormed (tr : List OutEvent) : Prop := ∀ o m, .deliver o m ∈ tr → WF m.bytes = true

/-- The timer as the collaborator sees it (R34 (a), R209): what the last `arm` or `cancel` of the trace left running. -/
def running (tr : List OutEvent) : Option Duration :=
  tr.foldl (fun r e => match e with
    | .arm d => some d
    | .cancel => none
    | _ => r) none

/-- The events of a trace with the time fields of the delivered Messages blanked (R130, R244). -/
def OutEvent.untimed : OutEvent → OutEvent
  | .deliver o m => .deliver o { m with stamp := 0, delta := 0 }
  | e => e

/-- A state with every clock reading of the reassembler blanked: the last stamp, and the stamps and deltas delivered
(R130, R244). -/
def State.untimed (s : State) : State := { s with lastStamp := none, trace := s.trace.map OutEvent.untimed }

/-- What a whole frame with clean bytes behind its opcode leaves, arriving on an empty buffer: fed on if its checksum is
good (R127), else no trace of it (R126). -/
def frameOutcome (K : Classifier) (w : List Byte) (now : Time) (s : State) : State :=
  if isChecksumOK w then
    deliver (decodedMessage w s.lastStamp now)
      (ackMatch K (decodedMessage w s.lastStamp now) { s with lastStamp := some now })
  else s

/-- `timerExpiry()` so many times in a row. -/
def expiries : Nat → State → Host.Outcome State Fault Refusal
  | 0, s => .next s
  | n + 1, s =>
    match expiries n s with
    | .next t => exec .timerExpiry t
    | o => o

/-- The outputs of the send machine: everything but the deliveries. -/
def sendEvents (tr : List OutEvent) : List OutEvent :=
  tr.filter fun e => match e with
    | .deliver _ _ => false
    | _ => true

/-- The output pair of one retransmission of `m`. -/
def sendPair (m : Message) : List OutEvent := [.arm (longTimeout m), .transmit (appendChecksum m.bytes)]

end Sys2Proof.Machine
end

