-- ==== Sys2Proof/Certificates/Slice0/Obligations.lean ====
section
/-! DEFINITION. The statements for the provers, each with the rule of spec/ it formalises. Where a statement names the
classifier it holds for every classifier `K`; exec uses Config.K, of which nothing is known. -/

open Sys2Proof Sys2Proof.Machine

/-! ## Encoding -/

/-- R70 to R79: decoding the encoding of a well-formed instruction gives it back, with the bytes after it untouched. -/
def Obligations.DecodeInvertsEncode : Prop :=
  ∀ (i : Instr) (w rest : List Byte), i.wellFormed = true → encode i = some w → decode (w ++ rest) = .instr i rest

/-- The other direction: what the decoder answers is well formed, and its encoding is what was read. -/
def Obligations.DecodedInstructionReencodes : Prop :=
  ∀ (bs : List Byte) (i : Instr) (rest : List Byte), decode bs = .instr i rest →
    i.wellFormed = true ∧ ∃ w, encode i = some w ∧ w ++ rest = bs

/-- Words written out from the spec: R79 (all three frames), R74 (`A0 05 40 1A`), R75 (`D0 20 11 32 00 2C`), R76
(`ED 0B ...`), R121 (`7F`), and the three rejections of a candidate (R123, R124, R125). -/
def Obligations.SpecWordsDecode : Prop :=
  decode [0x83, 0x7C] = .instr .powerOn [] ∧
  decode [0x82, 0x7D] = .instr .powerOff [] ∧
  decode [0xBB, 0x7F, 0x00, 0x3B] = .instr .getOpSwDataAP1 [] ∧
  decode [0x85, 0x7A] = .instr (.f2 5 0x7A) [] ∧
  decode [0xA0, 0x05, 0x40, 0x1A] = .instr (.f4 0 0x05 0x40 0x1A) [] ∧
  decode [0xD0, 0x20, 0x11, 0x32, 0x00, 0x2C] = .instr (.f6 0x10 0x20 0x11 0x32 0x00 0x2C) [] ∧
  decode [0xED, 0x0B, 0x7F, 0x24, 0x02, 0x03, 0x20, 0x00, 0x00, 0x00, 0x63] =
    .instr (.fv 0x0D 0x0B [0x7F, 0x24, 0x02, 0x03, 0x20, 0x00, 0x00, 0x00, 0x63]) [] ∧
  decode [0x7F, 0x00] = .instr (.data 0x7F) [0x00] ∧
  decode [0xBB, 0x83, 0x7C] = .reject .incomplete ∧
  decode [0xE5, 0x01] = .reject .shortFrame ∧
  decode [0xBB, 0x7F, 0x83, 0x7C] = .reject .falseOpcode

/-- R73 to R76: the frame length each range of opcodes implies; `none` only for class `11` without its length byte. -/
def Obligations.FrameLengthByOpcodeRange : Prop :=
  ∀ (op : Byte) (rest : List Byte),
    (op &&& 0xE0 = 0x80 → frameLength (op :: rest) = some 2) ∧
    (op &&& 0xE0 = 0xA0 → frameLength (op :: rest) = some 4) ∧
    (op &&& 0xE0 = 0xC0 → frameLength (op :: rest) = some 6) ∧
    (op &&& 0xE0 = 0xE0 →
      frameLength [op] = none ∧
      frameLength (op :: 0x00 :: rest) = some 128 ∧
      ∀ len : Byte, len ≠ 0x00 → frameLength (op :: len :: rest) = some len.toNat)

/-- R128 and the format rules R73 to R78 agree: at a candidate the decoder calls incomplete exactly what the reassembler
waits on, calls a false opcode or a short frame exactly what the reassembler drops one byte of, and an instruction
exactly what it takes as a frame, accepted or dropped whole by its checksum. -/
def Obligations.DecoderAgreesWithReassembler : Prop :=
  ∀ (b : Byte) (rest : List Byte), top b = true →
    (decode (b :: rest) = .reject .incomplete ↔ judge (b :: rest) = .await) ∧
    (decode (b :: rest) = .reject .shortFrame ∨ decode (b :: rest) = .reject .falseOpcode ↔
      judge (b :: rest) = .discard 1) ∧
    (∀ i left, decode (b :: rest) = .instr i left → ∃ w, encode i = some w ∧ w ++ left = b :: rest ∧
      judge (b :: rest) = if isChecksumOK w then .accept w.length else .discard w.length)

/-- R78, R124 (the spec's decision D3), the corner values of a class-`11` length byte: 1 loses the candidate alone, and
the search goes on; 2 is a two-byte frame, good for opcode `FD` only; a set top bit is waited on and then found a false
opcode. -/
def Obligations.CornerLengthBytes : Prop :=
  ∀ (id : BitVec 5) (rest : List Byte),
    judge (frameFV id 0x01 rest) = .discard 1 ∧
    (∀ (s : State) (now : Time), s.buf = [] →
      exec (.receive (frameFV id 0x01 rest) now) s = exec (.receive (0x01 :: rest) now) s) ∧
    judge (frameFV id 0x02 rest) = (if id = 0x1D#5 then .accept 2 else .discard 2) ∧
    ∀ len : Byte, top len = true →
      judge (frameFV id len rest) = if rest.length + 2 < len.toNat then .await else .discard 1

/-! ## Checksum -/

/-- R106: both round trips of the checksum. -/
def Obligations.ChecksumRoundTrip : Prop :=
  (∀ b : List Byte, stripChecksum (appendChecksum b) = b ∧ isChecksumOK (appendChecksum b) = true) ∧
  ∀ f : List Byte, f ≠ [] → isChecksumOK f = true → appendChecksum (stripChecksum f) = f

/-- R102, R108: the equivalent forms of the test, and that no order of the bytes matters to the checksum. -/
def Obligations.ChecksumTestEquivalentForms : Prop :=
  (∀ f : List Byte,
    (isChecksumOK f = true ↔ xorFold 0x00 f = 0xFF) ∧
    (isChecksumOK f = true ↔ ∃ c, f.getLast? = some c ∧ c = checksum f.dropLast)) ∧
  ∀ f g : List Byte, f.Perm g → checksum f = checksum g

/-- R107 (a), (b): the checksum's top bit is set exactly when an even number of the bytes have theirs set. -/
def Obligations.ChecksumTopBitIsParity : Prop :=
  ∀ bs : List Byte, top (checksum bs) = true ↔ (bs.countP top) % 2 = 0

/-- R107 (c), (d): a change of one byte is detected, two changes by one difference are not, and two good frames glued
together are no good frame. -/
def Obligations.ChecksumDetectsSingleByteErrors : Prop :=
  (∀ (pre post : List Byte) (x y : Byte), isChecksumOK (pre ++ x :: post) = true → y ≠ x →
    isChecksumOK (pre ++ y :: post) = false) ∧
  (∀ (pre mid post : List Byte) (x y d : Byte), isChecksumOK (pre ++ x :: mid ++ y :: post) = true →
    isChecksumOK (pre ++ (x ^^^ d) :: mid ++ (y ^^^ d) :: post) = true) ∧
  ∀ f g : List Byte, isChecksumOK f = true → isChecksumOK g = true → isChecksumOK (f ++ g) = false

/-- R105 (its length guard is the spec's decision D3): the validating construction answers the stripped Message on a good
frame of two bytes or more, and no value otherwise. -/
def Obligations.MessageFromFrameValidates : Prop :=
  ∀ (f : List Byte) (stamp delta : Time) (m : Message),
    mkMessageFromFrame f stamp delta = some m ↔
      2 ≤ f.length ∧ isChecksumOK f = true ∧ m = { bytes := f.dropLast, stamp := stamp, delta := delta }

/-! ## Step and reset -/

/-- Logs 1, 3, 5: when the bytes in front on the bus decode, the step is that instruction, run with what is left of the
bytes kept in front and the clock sample they came with. -/
def Obligations.StepRunsDecodedInstruction : Prop :=
  ∀ (s : State) (now : Time) (bytes : List Byte) (later : List Input) (i : Instr) (left : List Byte),
    s.inputs = .wire now bytes :: later → decode bytes = .instr i left →
    step s = exec i { s with clock := now, inputs := if left = [] then later else .wire now left :: later }

/-- Logs 1, 2, 5, 14: every other thing the schedule can hold. A call runs alone; bytes that hold no whole instruction go
to `receive`; with nothing scheduled the block waits; overlapping and re-entrant calls are refused by name. -/
def Obligations.StepFollowsSchedule : Prop :=
  (∀ (s : State) (i : Instr) (later : List Input), s.inputs = .call i :: later →
    step s = exec i { s with inputs := later }) ∧
  (∀ (s : State) (now : Time) (bytes : List Byte) (later : List Input) (r : Reject),
    s.inputs = .wire now bytes :: later → decode bytes = .reject r →
    step s = exec (.receive bytes now) { s with clock := now, inputs := later }) ∧
  (∀ s : State, s.inputs = [] → step s = .next s) ∧
  (∀ (s : State) (ops : List Instr) (later : List Input), s.inputs = .overlapped ops :: later →
    step s = .refused .notSerialised) ∧
  ∀ (s : State) (op inner : Instr) (later : List Input), s.inputs = .reentrant op inner :: later →
    step s = .refused .reentrantCall

/-- R200: every instruction ends in a next state, on every state and every operand. -/
def Obligations.EveryInstructionCompletes : Prop := ∀ (i : Instr) (s : State), ∃ t, exec i s = .next t

/-- Log 5, with R130: cutting the bytes on the bus into instructions, one a step, ends in the state one `receive` of all
of them ends in. -/
def Obligations.BusBytesCutEqualsOneReceive : Prop :=
  ∀ (s : State) (now : Time) (bytes : List Byte) (later : List Input), s.inputs = .wire now bytes :: later →
    ∃ n t, Host.Core.run Sys2Proof.core n s = .next t ∧
      exec (.receive bytes now) { s with clock := now, inputs := later } = .next t

/-- R35, and logs 1, 3, 6, 7 for the model's own fields: what reset leaves (the spec's own decision D18). -/
def Obligations.ResetStateElements : Prop :=
  State.reset.buf = [] ∧ State.reset.lastStamp = none ∧ State.reset.queue = [] ∧ State.reset.st = .idle ∧
  State.reset.cur = none ∧ State.reset.retry = none ∧ State.reset.deadline = none ∧ State.reset.observers = [] ∧
  State.reset.trace = [] ∧ State.reset.inputs = [] ∧ State.reset.clock = 0 ∧ State.reset.draws = 0

/-- R230 (decision D18): `reset()` puts every element at its reset value and emits `cancel` exactly when a deadline was
armed. The model's own fields other than the trace stay (logs 1, 3, 7). -/
def Obligations.ResetOperationResult : Prop :=
  ∀ s : State, exec .reset s = .next
    { State.reset with
      trace := s.trace ++ (if s.deadline.isSome then [OutEvent.cancel] else [])
      inputs := s.inputs
      clock := s.clock
      draws := s.draws }

/-! ## Invariants -/

/-- R32, R33 at reset. -/
def Obligations.ResetSatisfiesInvariant : Prop := ∀ K : Classifier, Inv K State.reset

/-- R32, R33, R200: every step keeps the invariants. -/
def Obligations.StepKeepsInvariant : Prop :=
  ∀ s t : State, Inv Config.K s → step s = .next t → Inv Config.K t

/-- R129, R33: from any state at all, `receive` leaves the buffer in rest form, of 254 bytes at most. -/
def Obligations.ReceiveLeavesRestForm : Prop :=
  ∀ (s : State) (chunk : List Byte) (now : Time), ∃ t, exec (.receive chunk now) s = .next t ∧
    RestForm t.buf ∧ t.buf.length ≤ 254

/-- R172: every `transmit` the block ever emits stands directly behind the `arm` of its own long timeout. -/
def Obligations.StepKeepsTransmitsGuarded : Prop :=
  ∀ s t : State, TransmitsGuarded s.trace → step s = .next t → TransmitsGuarded t.trace

/-- R133: every Message the block ever delivers is well formed. -/
def Obligations.StepDeliversOnlyWellFormed : Prop :=
  ∀ s t : State, DeliversWellFormed s.trace → step s = .next t → DeliversWellFormed t.trace

/-- R34 (a), R209, R233: an armed deadline is the timer that the outputs so far leave running in the collaborator. -/
def Obligations.StepKeepsDeadlineMirrorsTimer : Prop :=
  ∀ s t : State, (∀ d, s.deadline = some d → running s.trace = some d) → step s = .next t →
    ∀ d, t.deadline = some d → running t.trace = some d

/-- R36, R133: a well-formed Message has 1 to 127 bytes. -/
def Obligations.WellFormedMessageLength : Prop :=
  ∀ bs : List Byte, WF bs = true → 1 ≤ bs.length ∧ bs.length ≤ 127

/-! ## The reassembler -/

/-- R120: `receive` works on the buffer with the chunk behind it. -/
def Obligations.ReceiveReadsBufferThenChunk : Prop :=
  ∀ (s : State) (chunk : List Byte) (now : Time), ∃ t,
    exec (.receive chunk now) s = .next t ∧
    exec (.receive (s.buf ++ chunk) now) { s with buf := [] } = .next t

/-- R121: leading bytes with a clear top bit are discarded; where there is nothing else, nothing has happened. -/
def Obligations.LeadingJunkIsDiscarded : Prop :=
  ∀ (s : State) (junk rest : List Byte) (now : Time), s.buf = [] → clean junk = true →
    exec (.receive junk now) s = .next s ∧
    exec (.receive (junk ++ rest) now) s = exec (.receive rest now) s

/-- R123 (with the spec's decision D2: nothing is scanned early): a candidate whose length is unknown or not yet there is
kept, and nothing else happens. -/
def Obligations.PartialFrameIsAwaited : Prop :=
  ∀ (s : State) (b : Byte) (rest : List Byte) (now : Time), s.buf = [] → top b = true →
    (∀ L, frameLength (b :: rest) = some L → (b :: rest).length < L) →
    exec (.receive (b :: rest) now) s = .next { s with buf := b :: rest }

/-- R125: a whole candidate frame with another top-bit byte in it loses its candidate byte, and the search goes on. -/
def Obligations.FalseOpcodeConsumesOneByte : Prop :=
  ∀ (s : State) (b : Byte) (rest : List Byte) (L i : Nat) (x : Byte) (now : Time), s.buf = [] → top b = true →
    frameLength (b :: rest) = some L → L ≤ (b :: rest).length →
    1 ≤ i → i ≤ L - 1 → (b :: rest)[i]? = some x → top x = true →
    exec (.receive (b :: rest) now) s = exec (.receive rest now) s

/-- R201: a clean frame whose fold is not 0 is dropped whole, and nothing else changes. -/
def Obligations.BadChecksumFrameIsDropped : Prop :=
  ∀ (s : State) (b : Byte) (body rest : List Byte) (now : Time), s.buf = [] → top b = true → clean body = true →
    2 ≤ (b :: body).length → frameLength (b :: body) = some (b :: body).length →
    isChecksumOK (b :: body) = false →
    exec (.receive (b :: body) now) s = .next s ∧
    exec (.receive (b :: body ++ rest) now) s = exec (.receive rest now) s

/-- R127 (`delta` of the first Message by the spec's decision D6): a good frame leaves the buffer, is stamped, goes to the
ack matcher and then to the observers, and the loop goes on with what is behind it. -/
def Obligations.GoodFrameIsFed : Prop :=
  ∀ (s : State) (f rest : List Byte) (now : Time), s.buf = [] → WFF f = true →
    ∃ m : Message,
      m = { bytes := f.dropLast, stamp := now,
            delta := match s.lastStamp with
              | none => 0
              | some t => now - t } ∧
      exec (.receive f now) s = .next (deliver m (ackMatch Config.K m { s with lastStamp := some now })) ∧
      exec (.receive (f ++ rest) now) s =
        exec (.receive rest now) (deliver m (ackMatch Config.K m { s with lastStamp := some now }))

/-- R130, strong form: a stream split over two calls is the same as in one call, from any state and for any bytes; with
one clock sample the states are equal, with two they differ in clock readings only. -/
def Obligations.ChunkingIsUnobservable : Prop :=
  ∀ (s : State) (a b : List Byte) (t t1 t2 : Time), ∃ u v w x,
    exec (.receive (a ++ b) t) s = .next u ∧
    exec (.receive a t1) s = .next v ∧ exec (.receive b t2) v = .next w ∧
    u.untimed = w.untimed ∧
    exec (.receive a t) s = .next x ∧ exec (.receive b t) x = .next u

/-- R131 (b), (c): a well-formed frame standing whole anywhere in the stream is delivered, whatever stands before it and
whatever the buffer held, once 254 further bytes of any kind have come. -/
def Obligations.GoodFrameIsNeverLost : Prop :=
  ∀ (s : State) (before g behind : List Byte) (now : Time) (o : ObserverId),
    WFF g = true → 254 ≤ behind.length → o ∈ s.observers →
    ∃ t new m, exec (.receive (before ++ g ++ behind) now) s = .next t ∧ t.trace = s.trace ++ new ∧
      .deliver o m ∈ new ∧ m.bytes = g.dropLast

/-- R244, R211: `receive` does the same whatever the clock reads, but for the clock readings it hands on. -/
def Obligations.ClockNeverDecides : Prop :=
  ∀ (s s' : State) (chunk : List Byte) (t t' : Time), s.untimed = s'.untimed →
    ∃ u u', exec (.receive chunk t) s = .next u ∧ exec (.receive chunk t') s' = .next u' ∧ u.untimed = u'.untimed

/-- R57: what a second application or an empty one leaves alone. -/
def Obligations.IdempotentOperations : Prop :=
  (∀ (s : State) (now : Time), RestForm s.buf → exec (.receive [] now) s = .next s) ∧
  (∀ s : State, s.deadline = none → exec .timerExpiry s = .next s) ∧
  (∀ s : State, ∃ t, exec .detach s = .next t ∧ exec .detach t = .next t) ∧
  (∀ (s : State) (o : ObserverId), ∃ t, exec (.addObserver o) s = .next t ∧ exec (.addObserver o) t = .next t) ∧
  ∀ (s : State) (o : ObserverId), ∃ t, exec (.removeObserver o) s = .next t ∧ exec (.removeObserver o) t = .next t

/-! ## The rows of the wire -/

/-- Log 4: an instruction the bus carries is `receive` of its bytes at the state's clock sample, whatever the buffer
holds; and `receive` runs under the instance's classifier, so that what is said for every classifier is said of it. -/
def Obligations.WireRowIsReceiveOfItsBytes : Prop :=
  (∀ (i : Instr) (w : List Byte) (s : State), encode i = some w →
    ∃ t, exec i s = .next t ∧ exec (.receive w s.clock) s = .next t) ∧
  ∀ (s : State) (chunk : List Byte) (now : Time),
    exec (.receive chunk now) s = .next (receiveWith Config.K chunk now s)

/-- R73 to R76, R121, R126, R127 on an empty buffer: a DATA byte leaves nothing; a frame of each format is fed on when its
checksum is good and leaves nothing otherwise. Arrival as one chunk is log 4; the stamp is the model's choice of clock
sample, State.clock (log 3), one for all of the chunk (the spec's decision D5). A frame with a top bit set behind its
opcode is covered by WireRowIsReceiveOfItsBytes with FalseOpcodeConsumesOneByte. -/
def Obligations.WireRowsOnEmptyBuffer : Prop :=
  ∀ s : State, s.buf = [] →
    (∀ v, exec (.data v) s = .next s) ∧
    (∀ id c, clean [c] = true → exec (.f2 id c) s = .next (frameOutcome Config.K (frameF2 id c) s.clock s)) ∧
    (∀ id d1 d2 c, clean [d1, d2, c] = true →
      exec (.f4 id d1 d2 c) s = .next (frameOutcome Config.K (frameF4 id d1 d2 c) s.clock s)) ∧
    (∀ id d1 d2 d3 d4 c, clean [d1, d2, d3, d4, c] = true →
      exec (.f6 id d1 d2 d3 d4 c) s = .next (frameOutcome Config.K (frameF6 id d1 d2 d3 d4 c) s.clock s)) ∧
    (∀ id len rest, clean (len :: rest) = true → rest.length + 2 = lenOfByte len →
      exec (.fv id len rest) s = .next (frameOutcome Config.K (frameFV id len rest) s.clock s))

/-- R79: the three frames SGL gives in bytes are good frames; on an empty buffer (log 4) each feeds its Message on. -/
def Obligations.ConcreteFramesFeedTheirMessages : Prop :=
  ∀ (s : State) (m : List Byte → Message), s.buf = [] →
    (∀ bs, m bs = { bytes := bs, stamp := s.clock, delta := deltaFrom s.lastStamp s.clock }) →
    exec .powerOn s = .next (deliver (m [0x83]) (ackMatch Config.K (m [0x83]) { s with lastStamp := some s.clock })) ∧
    exec .powerOff s = .next (deliver (m [0x82]) (ackMatch Config.K (m [0x82]) { s with lastStamp := some s.clock })) ∧
    exec .getOpSwDataAP1 s = .next
      (deliver (m [0xBB, 0x7F, 0x00]) (ackMatch Config.K (m [0xBB, 0x7F, 0x00]) { s with lastStamp := some s.clock }))

/-- R79, R86: the Messages of the three factories, sent, are those frames: enqueued on an idle machine with an empty queue
each is armed for and transmitted. -/
def Obligations.FactoriesTransmitTheirFrames : Prop :=
  ∀ (s : State) (stamp delta : Time), s.inFlight = none → s.queue = [] →
    ∃ t1 t2 t3, exec (.enqueue (factoryPowerOn stamp delta)) s = .next t1 ∧
      t1.trace = s.trace ++ [.arm (3 / 833), .transmit [0x83, 0x7C]] ∧
      exec (.enqueue (factoryPowerOff stamp delta)) s = .next t2 ∧
      t2.trace = s.trace ++ [.arm (3 / 833), .transmit [0x82, 0x7D]] ∧
      exec (.enqueue (factoryGetOpSwDataAP1 stamp delta)) s = .next t3 ∧
      t3.trace = s.trace ++ [.arm (6 / 833), .transmit [0xBB, 0x7F, 0x00, 0x3B]]

/-! ## The send machine -/

/-- R155: `StartNext` on an idle machine takes the head of the queue, with a budget of 10, arms the long timeout and
transmits the Message with its checksum; in every other case it does nothing. -/
def Obligations.StartNextTakesQueueHead : Prop :=
  (∀ (s : State) (m : Message) (rest : List Message), s.inFlight = none → s.queue = m :: rest →
    startNext s = { s with
      queue := rest
      inFlight := some { cur := m, retry := 10, wait := .sending }
      deadline := some (longTimeout m)
      trace := s.trace ++ [.arm (longTimeout m), .transmit (appendChecksum m.bytes)] }) ∧
  ∀ s : State, s.st ≠ .idle ∨ s.queue = [] → startNext s = s

/-- R156 (no check at enqueue: the spec's decision D15): on an idle machine with an empty queue the Message goes out at
once; while a send is in flight it only joins the queue; an idle machine with a queue, which R32 item 3 rules out, sends
the queue's head. -/
def Obligations.EnqueueResult : Prop :=
  ∀ (s : State) (m : Message),
    (∀ f, s.inFlight = some f → exec (.enqueue m) s = .next { s with queue := s.queue ++ [m] }) ∧
    (s.inFlight = none → s.queue = [] → exec (.enqueue m) s = .next { s with
      inFlight := some { cur := m, retry := 10, wait := .sending }
      deadline := some (longTimeout m)
      trace := s.trace ++ [.arm (longTimeout m), .transmit (appendChecksum m.bytes)] }) ∧
    (∀ q rest, s.inFlight = none → s.queue = q :: rest → exec (.enqueue m) s = .next { s with
      queue := rest ++ [m]
      inFlight := some { cur := q, retry := 10, wait := .sending }
      deadline := some (longTimeout q)
      trace := s.trace ++ [.arm (longTimeout q), .transmit (appendChecksum q.bytes)] })

/-- R152, R153 (the checksum counted, exact rationals: decisions D8, D9): the values of the two timeouts. -/
def Obligations.TimeoutValues : Prop :=
  (∀ m : Message, longTimeout m = ((m.bytes.length + 1 : Nat) : Rat) * 3 / 1666) ∧ shortTimeout = 6 / 833

/-- R157 with R154 and R155: `Complete` ends the send, cancels what is armed, and starts the next entry if one waits. That
`cancel` is emitted only if a deadline was armed is the spec's decision D25, of R154 (log 16). -/
def Obligations.CompleteEndsSend : Prop :=
  ∀ s : State,
    (s.queue = [] → complete s = { s with
      inFlight := none
      deadline := none
      trace := s.trace ++ (if s.deadline.isSome then [OutEvent.cancel] else []) }) ∧
    ∀ q rest, s.queue = q :: rest → complete s = { s with
      queue := rest
      inFlight := some { cur := q, retry := 10, wait := .sending }
      deadline := some (longTimeout q)
      trace := s.trace ++ (if s.deadline.isSome then [OutEvent.cancel] else []) ++
        [.arm (longTimeout q), .transmit (appendChecksum q.bytes)] }

/-- R158, all of its cases (decisions D10, D11, D13; conflict C3): nothing armed, nothing happens; a budget left, it drops
by one and the same bytes go out again under a long deadline, `st` kept; no budget left, the entry is abandoned without
a `cancel` and the next one starts. -/
def Obligations.TimerExpiryResult : Prop :=
  ∀ s : State,
    (s.deadline = none → exec .timerExpiry s = .next s) ∧
    ∀ d f, s.deadline = some d → s.inFlight = some f →
      (1 ≤ f.retry → exec .timerExpiry s = .next { s with
        inFlight := some { f with retry := f.retry - 1 }
        deadline := some (longTimeout f.cur)
        trace := s.trace ++ [.arm (longTimeout f.cur), .transmit (appendChecksum f.cur.bytes)] }) ∧
      (f.retry ≤ 0 → s.queue = [] → exec .timerExpiry s = .next { s with inFlight := none, deadline := none }) ∧
      (∀ q rest, f.retry ≤ 0 → s.queue = q :: rest → exec .timerExpiry s = .next { s with
        queue := rest
        inFlight := some { cur := q, retry := 10, wait := .sending }
        deadline := some (longTimeout q)
        trace := s.trace ++ [.arm (longTimeout q), .transmit (appendChecksum q.bytes)] })

/-- R170: from a full budget, expiries 1 to 10 retransmit the identical bytes and expiry 11 abandons the entry, sending
the next one if the queue holds one. -/
def Obligations.RetryBound : Prop :=
  ∀ (s : State) (f : InFlight) (d : Duration), s.inFlight = some f → f.retry = 10 → s.deadline = some d →
    (∀ n, 1 ≤ n → n ≤ 10 → expiries n s = .next { s with
      inFlight := some { f with retry := 10 - n }
      deadline := some (longTimeout f.cur)
      trace := s.trace ++ (List.replicate n (sendPair f.cur)).flatten }) ∧
    (s.queue = [] → expiries 11 s = .next { s with
      inFlight := none
      deadline := none
      trace := s.trace ++ (List.replicate 10 (sendPair f.cur)).flatten }) ∧
    ∀ q rest, s.queue = q :: rest → expiries 11 s = .next { s with
      queue := rest
      inFlight := some { cur := q, retry := 10, wait := .sending }
      deadline := some (longTimeout q)
      trace := s.trace ++ (List.replicate 10 (sendPair f.cur)).flatten ++ sendPair q }

/-- R160, over the bytes that come in: the frame of the ordinary command in flight completes its send, before the
observers get it. -/
def Obligations.EchoCompletesOrdinarySend : Prop :=
  ∀ (K : Classifier) (s : State) (fl : InFlight) (g : List Byte) (now : Time),
    s.buf = [] → WFF g = true → s.inFlight = some fl → g.dropLast = fl.cur.bytes →
    cmdClass K fl.cur.bytes = .ordinary →
    ∃ m, m.bytes = g.dropLast ∧ receiveWith K g now s = deliver m (complete { s with lastStamp := some now })

/-- R161, R162 (in every non-idle state: the spec's decision D12): the echo of a special command moves to its awaiting
state and arms the short timeout; budget, entry and queue stay. -/
def Obligations.EchoOfSpecialCommandAwaitsReply : Prop :=
  ∀ (K : Classifier) (s : State) (fl : InFlight) (g : List Byte) (now : Time) (w : Wait),
    s.buf = [] → WFF g = true → s.inFlight = some fl → g.dropLast = fl.cur.bytes →
    (cmdClass K fl.cur.bytes = .imm ∧ w = .awaitingDigitalPacketAck ∨
      cmdClass K fl.cur.bytes = .switchAck ∧ w = .awaitingSwitchAck) →
    receiveWith K g now s = deliver (decodedMessage g s.lastStamp now)
      { s with
        lastStamp := some now
        inFlight := some { fl with wait := w }
        deadline := some (6 / 833)
        trace := s.trace ++ [.arm (6 / 833)] }

/-- R163, R165: the accepting reply of the awaiting state completes the send. -/
def Obligations.AcceptedReplyCompletesSend : Prop :=
  ∀ (K : Classifier) (s : State) (fl : InFlight) (g : List Byte) (now : Time),
    s.buf = [] → WFF g = true → s.inFlight = some fl → g.dropLast ≠ fl.cur.bytes →
    (fl.wait = .awaitingDigitalPacketAck ∧ K.isImmAccepted g.dropLast = true ∨
      fl.wait = .awaitingSwitchAck ∧ K.isSwitchAccepted g.dropLast = true) →
    ∃ m, m.bytes = g.dropLast ∧ receiveWith K g now s = deliver m (complete { s with lastStamp := some now })

/-- R164, R166 (`st` stays: the spec's decision D10): "buffer full" and "rejected" refill the budget, arm the long timeout
and retransmit the same bytes. -/
def Obligations.BusyReplyRefillsAndRetransmits : Prop :=
  ∀ (K : Classifier) (s : State) (fl : InFlight) (g : List Byte) (now : Time),
    s.buf = [] → WFF g = true → s.inFlight = some fl → g.dropLast ≠ fl.cur.bytes →
    (fl.wait = .awaitingDigitalPacketAck ∧ K.isImmAccepted g.dropLast = false ∧ K.isImmBufferFull g.dropLast = true ∨
      fl.wait = .awaitingSwitchAck ∧ K.isSwitchAccepted g.dropLast = false ∧ K.isSwitchRejected g.dropLast = true) →
    receiveWith K g now s = deliver (decodedMessage g s.lastStamp now)
      { s with
        lastStamp := some now
        inFlight := some { fl with retry := 10 }
        deadline := some (longTimeout fl.cur)
        trace := s.trace ++ [.arm (longTimeout fl.cur), .transmit (appendChecksum fl.cur.bytes)] }

/-- R167: any other decoded Message leaves the send machine as it is and is still delivered. -/
def Obligations.OtherMessagesAreIgnored : Prop :=
  ∀ (K : Classifier) (s : State) (g : List Byte) (now : Time), s.buf = [] → WFF g = true →
    (s.inFlight = none ∨ ∃ fl, s.inFlight = some fl ∧ g.dropLast ≠ fl.cur.bytes ∧
      (fl.wait = .sending ∨
        fl.wait = .awaitingDigitalPacketAck ∧ K.isImmAccepted g.dropLast = false ∧
          K.isImmBufferFull g.dropLast = false ∨
        fl.wait = .awaitingSwitchAck ∧ K.isSwitchAccepted g.dropLast = false ∧
          K.isSwitchRejected g.dropLast = false)) →
    ∃ m, m.bytes = g.dropLast ∧ receiveWith K g now s = deliver m { s with lastStamp := some now }

/-- R168 (what it leaves alone: the spec's decision D14): `detach()`. -/
def Obligations.DetachResult : Prop :=
  ∀ s : State, exec .detach s = .next { s with
    queue := []
    inFlight := none
    deadline := none
    trace := s.trace ++ (if s.deadline.isSome then [OutEvent.cancel] else []) }

/-- R171, SGL's scenario: send, echo, "buffer full", exactly one retransmission of the identical bytes, "accepted", idle;
with nothing queued it stays idle, with an entry `y` queued it sends that one. It holds whether or not the echo of the
retransmission (`again`) comes before "accepted". -/
def Obligations.ScenarioSendEchoFullAccepted : Prop :=
  ∀ (K : Classifier) (s : State) (x : Message) (full acc again : List Byte) (t1 t2 t3 t4 : Time),
    s.buf = [] → s.inFlight = none → s.queue = [] →
    cmdClass K x.bytes = .imm → WF x.bytes = true → WFF full = true → WFF acc = true →
    full.dropLast ≠ x.bytes → K.isImmAccepted full.dropLast = false → K.isImmBufferFull full.dropLast = true →
    acc.dropLast ≠ x.bytes → K.isImmAccepted acc.dropLast = true →
    again = [] ∨ again = appendChecksum x.bytes →
    ∃ (s1 : State) (last : State → State),
      exec (.enqueue x) s = .next s1 ∧
      (∀ u, last u = receiveWith K acc t4 (receiveWith K again t3 (receiveWith K full t2
        (receiveWith K (appendChecksum x.bytes) t1 u)))) ∧
      ((last s1).st = .idle ∧ (last s1).queue = [] ∧ (last s1).deadline = none ∧
        sendEvents (last s1).trace = sendEvents s.trace ++ sendPair x ++ [.arm (6 / 833)] ++ sendPair x ++
          (if again = [] then [] else [.arm (6 / 833)]) ++ [.cancel]) ∧
      ∀ y : Message, ∃ s2, exec (.enqueue y) s1 = .next s2 ∧
        (last s2).st = .sending ∧ (last s2).cur = some y ∧ (last s2).queue = [] ∧
        sendEvents (last s2).trace = sendEvents s.trace ++ sendPair x ++ [.arm (6 / 833)] ++ sendPair x ++
          (if again = [] then [] else [.arm (6 / 833)]) ++ [.cancel] ++ sendPair y

/-- R236: so many "buffer full" replies in a row keep the one entry in flight with a full budget, one retransmission
each, and start nothing else. -/
def Obligations.BusyRepliesAreUnbounded : Prop :=
  ∀ (K : Classifier) (s : State) (fl : InFlight) (g : List Byte) (now : Time) (n : Nat),
    s.buf = [] → WFF g = true → s.inFlight = some fl → g.dropLast ≠ fl.cur.bytes →
    fl.wait = .awaitingDigitalPacketAck → K.isImmAccepted g.dropLast = false → K.isImmBufferFull g.dropLast = true →
    1 ≤ n →
    ∃ t, receiveWith K (List.replicate n g).flatten now s = t ∧
      t.inFlight = some { fl with retry := 10 } ∧ t.queue = s.queue ∧ t.buf = [] ∧
      sendEvents t.trace = sendEvents s.trace ++ (List.replicate n (sendPair fl.cur)).flatten

/-- R243: what is in flight and not well formed is never confirmed while `sending`: nothing received changes the send
machine or makes it put anything out. -/
def Obligations.IllFormedSendIsNeverConfirmed : Prop :=
  ∀ (s : State) (fl : InFlight) (chunk : List Byte) (now : Time), s.inFlight = some fl → fl.wait = .sending →
    WF fl.cur.bytes = false →
    ∃ t new, exec (.receive chunk now) s = .next t ∧ t.inFlight = s.inFlight ∧ t.deadline = s.deadline ∧
      t.queue = s.queue ∧ t.trace = s.trace ++ new ∧ ∀ e ∈ new, ∃ o m, e = .deliver o m

/-- R241: an idle machine with an empty queue is left idle by everything but `enqueue`. -/
def Obligations.IdleIsLeftByEnqueueOnly : Prop :=
  ∀ (i : Instr) (s : State), s.inFlight = none → s.queue = [] → (∀ m, i ≠ .enqueue m) →
    ∃ t, exec i s = .next t ∧ t.inFlight = none ∧ t.queue = []

/-- R25, R52: the queue is first in, first out. Only `detach` and `reset` empty it; every other step appends the one
Message enqueued (if it enqueues) and takes entries off the head, each of which is transmitted, in that order. -/
def Obligations.QueueIsFifo : Prop :=
  ∀ (i : Instr) (s : State), ∃ t new, exec i s = .next t ∧ t.trace = s.trace ++ new ∧
    (i = .detach ∨ i = .reset → t.queue = []) ∧
    (i ≠ .detach → i ≠ .reset → ∃ waiting taken,
      (waiting = s.queue ∧ (∀ m, i ≠ .enqueue m) ∨ ∃ m, i = .enqueue m ∧ waiting = s.queue ++ [m]) ∧
      waiting = taken ++ t.queue ∧
      (taken.map fun m => OutEvent.transmit (appendChecksum m.bytes)).Sublist new)

/-! ## Observers -/

/-- R190, R191 (set semantics: the spec's decision D17): registration changes the observer set as a set, keeps its
canonical form, puts nothing out, and changes nothing else. -/
def Obligations.RegistrationResult : Prop :=
  ∀ (s : State) (o : ObserverId), ∃ os os',
    exec (.addObserver o) s = .next { s with observers := os } ∧
    (∀ x, x ∈ os ↔ x = o ∨ x ∈ s.observers) ∧ (RisingIds s.observers → RisingIds os) ∧
    exec (.removeObserver o) s = .next { s with observers := os' } ∧
    (∀ x, x ∈ os' ↔ x ≠ o ∧ x ∈ s.observers) ∧ (RisingIds s.observers → RisingIds os')

/-- R192: a decoded Message goes to every registered observer once, whatever the send machine made of it, in an order of
which only that much is known (R193; the draw is log 7's). -/
def Obligations.DeliverReachesEachObserverOnce : Prop :=
  ∀ (K : Classifier) (s : State) (g : List Byte) (now : Time), s.buf = [] → WFF g = true →
    ∃ (u : State) (os : List ObserverId),
      u = ackMatch K (decodedMessage g s.lastStamp now) { s with lastStamp := some now } ∧ os.Perm s.observers ∧
      receiveWith K g now s = { u with
        trace := u.trace ++ os.map fun o => OutEvent.deliver o (decodedMessage g s.lastStamp now)
        draws := u.draws + 1 }

/-- R193: the model leaves the order open: every permutation of the observers is the order some draw gives. -/
def Obligations.EveryDeliveryOrderIsPossible : Prop :=
  ∀ os ps : List ObserverId, ps.Perm os → ∃ slot : Nat → Nat, arrange slot os = ps

/-! ## Frames -/

/-- R132, and the frame of the send operations: `enqueue`, `timerExpiry`, `detach` touch neither the reassembler nor the
observers nor what the environment holds, and only append to the trace. -/
def Obligations.SendOperationsFrame : Prop :=
  ∀ (i : Instr) (s : State), (∃ m, i = .enqueue m) ∨ i = .timerExpiry ∨ i = .detach →
    ∃ t, exec i s = .next t ∧ t.buf = s.buf ∧ t.lastStamp = s.lastStamp ∧ t.observers = s.observers ∧
      t.inputs = s.inputs ∧ t.clock = s.clock ∧ t.draws = s.draws ∧ s.trace <+: t.trace

/-- The frame of `receive` and of the rows the bus carries: the observers and what the environment holds are unchanged,
the trace is only appended to; with nothing in flight the send machine is untouched and only `deliver` events come. -/
def Obligations.ReceiveFrame : Prop :=
  ∀ (i : Instr) (s : State), (∃ chunk now, i = .receive chunk now) ∨ (∃ w, encode i = some w) →
    ∃ t new, exec i s = .next t ∧ t.observers = s.observers ∧ t.inputs = s.inputs ∧ t.clock = s.clock ∧
      t.trace = s.trace ++ new ∧
      (s.inFlight = none → t.inFlight = none ∧ t.queue = s.queue ∧ t.deadline = s.deadline ∧
        ∀ e ∈ new, ∃ o m, e = .deliver o m)
end

