-- ==== Sys2Proof/Laws/Frame.lean ====
section
/-! SUPPORT. Small lemmas of the frame's fields, lengths and checksum. -/

namespace Sys2Proof.Machine

theorem xorFold_append (a : Byte) (s t : List Byte) : xorFold a (s ++ t) = xorFold (xorFold a s) t :=
  List.foldl_append

@[simp] theorem xorFold_nil (a : Byte) : xorFold a [] = a := rfl

@[simp] theorem xorFold_cons (a b : Byte) (s : List Byte) : xorFold a (b :: s) = xorFold (a ^^^ b) s := rfl

/-- The seed only adds to the fold (R108). -/
theorem xorFold_seed (a : Byte) (s : List Byte) : xorFold a s = a ^^^ xorFold 0 s := by
  induction s generalizing a with
  | nil => simp
  | cons b s ih => rw [xorFold_cons, xorFold_cons, ih, ih (0 ^^^ b)]; simp [BitVec.xor_assoc]

@[simp] theorem clean_nil : clean [] = true := rfl

@[simp] theorem clean_cons (b : Byte) (bs : List Byte) : clean (b :: bs) = (!top b && clean bs) := rfl

@[simp] theorem clean_append (s t : List Byte) : clean (s ++ t) = (clean s && clean t) := List.all_append

theorem clean_iff {bs : List Byte} : clean bs = true ↔ ∀ b ∈ bs, top b = false := by simp [clean]

theorem lenOfByte_pos (b : Byte) : 1 ≤ lenOfByte b := by
  unfold lenOfByte lenZeroMeans
  split
  · omega
  · rename_i h
    have : b.toNat ≠ 0 := fun h0 => h (by apply BitVec.eq_of_toNat_eq; simpa using h0)
    omega

theorem lenOfByte_le (b : Byte) : lenOfByte b ≤ 255 := by
  unfold lenOfByte lenZeroMeans
  have := b.isLt
  split <;> omega

/-- A byte with its top bit clear denotes at most 128 (R76). -/
theorem lenOfByte_le_of_clean {b : Byte} (h : top b = false) : lenOfByte b ≤ 128 := by
  unfold lenOfByte lenZeroMeans
  have h7 : b.toNat < 128 := by
    simp only [top, BitVec.getLsbD, Nat.testBit, Nat.shiftRight_eq_div_pow, Nat.one_and_eq_mod_two] at h
    have := b.isLt
    simp at h
    omega
  split <;> omega

/-- The table of R122 as one equation. -/
theorem frameLength_cons (b : Byte) (rest : List Byte) : frameLength (b :: rest) =
    if lengthClass b = 0b00#2 then some 2
    else if lengthClass b = 0b01#2 then some 4
    else if lengthClass b = 0b10#2 then some 6
    else rest.head?.map lenOfByte := by
  cases rest <;> rfl

/-- The lengths a candidate can imply (R122). -/
theorem frameLength_cases {b : Byte} {rest : List Byte} {L : Nat} (h : frameLength (b :: rest) = some L) :
    L = 2 ∨ L = 4 ∨ L = 6 ∨ ∃ len tl, rest = len :: tl ∧ L = lenOfByte len := by
  rw [frameLength_cons] at h
  split at h
  · exact .inl (by simpa using h.symm)
  split at h
  · exact .inr (.inl (by simpa using h.symm))
  split at h
  · exact .inr (.inr (.inl (by simpa using h.symm)))
  · cases rest with
    | nil => simp at h
    | cons len tl => exact .inr (.inr (.inr ⟨len, tl, rfl, by simpa using h.symm⟩))

theorem frameLength_pos {b : Byte} {rest : List Byte} {L : Nat} (h : frameLength (b :: rest) = some L) : 1 ≤ L := by
  rcases frameLength_cases h with rfl | rfl | rfl | ⟨len, tl, -, rfl⟩
  iterate 3 omega
  exact lenOfByte_pos len

theorem frameLength_le {b : Byte} {rest : List Byte} {L : Nat} (h : frameLength (b :: rest) = some L) : L ≤ 255 := by
  rcases frameLength_cases h with rfl | rfl | rfl | ⟨len, tl, -, rfl⟩
  iterate 3 omega
  exact lenOfByte_le len

/-- Bytes behind those already there do not change a known length. -/
theorem frameLength_append {b : Byte} {rest more : List Byte} {L : Nat} (h : frameLength (b :: rest) = some L) :
    frameLength (b :: rest ++ more) = some L := by
  rw [List.cons_append, frameLength_cons]
  rw [frameLength_cons] at h
  cases rest with
  | nil =>
    split at h
    · simp_all
    split at h
    · simp_all
    split at h
    · simp_all
    · simp at h
  | cons len tl => simpa using h

/-- A length is unknown only while nothing stands behind the candidate. -/
theorem frameLength_none {b : Byte} {rest : List Byte} (h : frameLength (b :: rest) = none) : rest = [] := by
  rw [frameLength_cons] at h
  split at h
  · cases h
  split at h
  · cases h
  split at h
  · cases h
  · cases rest with
    | nil => rfl
    | cons len tl => simp at h

/-- A well-formed frame by its parts (R82). -/
theorem WFF_iff {f : List Byte} : WFF f = true ↔ ∃ b body, f = b :: body ∧ 1 ≤ body.length ∧ top b = true ∧
    clean body = true ∧ frameLength f = some f.length ∧ isChecksumOK f = true := by
  cases f with
  | nil => simp [WFF]
  | cons b body => simp [WFF, and_assoc]

@[simp] theorem top_opByte (hi : BitVec 3) (id : BitVec 5) : top (opByte hi id) = hi.getLsbD 2 := by
  rw [top, opByte, BitVec.getLsbD_append]
  rfl

theorem lengthClass_opByte (hi : BitVec 3) (id : BitVec 5) : lengthClass (opByte hi id) = hi.extractLsb' 0 2 := by
  apply BitVec.eq_of_getLsbD_eq
  intro i hi'
  simp only [lengthClass, opByte, BitVec.getLsbD_extractLsb', BitVec.getLsbD_append]
  have h5 : ¬ 5 + i < 5 := by omega
  simp [h5, hi']

@[simp] theorem idBits_opByte (hi : BitVec 3) (id : BitVec 5) : idBits (opByte hi id) = id := by
  apply BitVec.eq_of_getLsbD_eq
  intro i hi'
  rw [idBits, opByte, BitVec.getLsbD_extractLsb', BitVec.getLsbD_append]
  simp [hi']

@[simp] theorem top_byteData (v : BitVec 7) : top (byteData v) = false := by
  rw [top, byteData, BitVec.getLsbD_append]
  rfl

end Sys2Proof.Machine
end

