-- ==== Sys2Proof/Laws/Decode.lean ====
section
/-! SUPPORT. Small lemmas of the decoder and the encoder. -/

namespace Sys2Proof

open Machine

/-- The decoder at a byte: DATA, or the decoder of the candidate's format. -/
theorem decode_cons (b : Byte) (rest : List Byte) : decode (b :: rest) =
    if top b = false then .instr (.data (b.extractLsb' 0 7)) rest
    else if lengthClass b = 0b00#2 then decodeF2 (idBits b) rest
    else if lengthClass b = 0b01#2 then decodeF4 (idBits b) rest
    else if lengthClass b = 0b10#2 then decodeF6 (idBits b) rest
    else decodeFV (idBits b) rest := rfl

theorem lengthClass_cases (c : BitVec 2) : c = 0b00#2 ∨ c = 0b01#2 ∨ c = 0b10#2 ∨ c = 0b11#2 := by
  revert c
  decide

/-- A candidate is its top bit, its length class and its bits 4:0 (R71). -/
theorem opByte_split (b : Byte) (h : top b = true) :
    (lengthClass b = 0b00#2 → opByte 0b100#3 (idBits b) = b) ∧
    (lengthClass b = 0b01#2 → opByte 0b101#3 (idBits b) = b) ∧
    (lengthClass b = 0b10#2 → opByte 0b110#3 (idBits b) = b) ∧
    (lengthClass b = 0b11#2 → opByte 0b111#3 (idBits b) = b) := by
  revert b
  decide +kernel

/-- A byte that is no candidate is its low seven bits (R77). -/
theorem byteData_extract (b : Byte) (h : top b = false) : byteData (b.extractLsb' 0 7) = b := by
  revert b
  decide +kernel

theorem encode_ne_nil {i : Instr} {w : List Byte} (h : encode i = some w) : w ≠ [] := by
  cases i <;> cases h <;> exact List.cons_ne_nil _ _

end Sys2Proof
end

