-- ==== Sys2Proof/Laws/State.lean ====
section
/-! SUPPORT. One lemma per field per update for the outputs that every send operation is made of, and the elements `st`,
`cur`, `retry` as they are read off the in-flight record. -/

namespace Sys2Proof.Machine

@[simp] theorem emit_buf (e : OutEvent) (s : State) : (emit e s).buf = s.buf := rfl
@[simp] theorem emit_lastStamp (e : OutEvent) (s : State) : (emit e s).lastStamp = s.lastStamp := rfl
@[simp] theorem emit_queue (e : OutEvent) (s : State) : (emit e s).queue = s.queue := rfl
@[simp] theorem emit_inFlight (e : OutEvent) (s : State) : (emit e s).inFlight = s.inFlight := rfl
@[simp] theorem emit_deadline (e : OutEvent) (s : State) : (emit e s).deadline = s.deadline := rfl
@[simp] theorem emit_observers (e : OutEvent) (s : State) : (emit e s).observers = s.observers := rfl
@[simp] theorem emit_trace (e : OutEvent) (s : State) : (emit e s).trace = s.trace ++ [e] := rfl
@[simp] theorem emit_inputs (e : OutEvent) (s : State) : (emit e s).inputs = s.inputs := rfl
@[simp] theorem emit_clock (e : OutEvent) (s : State) : (emit e s).clock = s.clock := rfl
@[simp] theorem emit_draws (e : OutEvent) (s : State) : (emit e s).draws = s.draws := rfl

@[simp] theorem arm_buf (d : Duration) (s : State) : (arm d s).buf = s.buf := rfl
@[simp] theorem arm_lastStamp (d : Duration) (s : State) : (arm d s).lastStamp = s.lastStamp := rfl
@[simp] theorem arm_queue (d : Duration) (s : State) : (arm d s).queue = s.queue := rfl
@[simp] theorem arm_inFlight (d : Duration) (s : State) : (arm d s).inFlight = s.inFlight := rfl
@[simp] theorem arm_deadline (d : Duration) (s : State) : (arm d s).deadline = some d := rfl
@[simp] theorem arm_observers (d : Duration) (s : State) : (arm d s).observers = s.observers := rfl
@[simp] theorem arm_trace (d : Duration) (s : State) : (arm d s).trace = s.trace ++ [.arm d] := rfl
@[simp] theorem arm_inputs (d : Duration) (s : State) : (arm d s).inputs = s.inputs := rfl
@[simp] theorem arm_clock (d : Duration) (s : State) : (arm d s).clock = s.clock := rfl
@[simp] theorem arm_draws (d : Duration) (s : State) : (arm d s).draws = s.draws := rfl

@[simp] theorem deliver_buf (m : Message) (s : State) : (deliver m s).buf = s.buf := rfl
@[simp] theorem deliver_lastStamp (m : Message) (s : State) : (deliver m s).lastStamp = s.lastStamp := rfl
@[simp] theorem deliver_queue (m : Message) (s : State) : (deliver m s).queue = s.queue := rfl
@[simp] theorem deliver_inFlight (m : Message) (s : State) : (deliver m s).inFlight = s.inFlight := rfl
@[simp] theorem deliver_deadline (m : Message) (s : State) : (deliver m s).deadline = s.deadline := rfl
@[simp] theorem deliver_observers (m : Message) (s : State) : (deliver m s).observers = s.observers := rfl
@[simp] theorem deliver_trace (m : Message) (s : State) : (deliver m s).trace =
    s.trace ++ (arrange (Config.deliverSlot s.draws) s.observers).map fun o => .deliver o m := rfl
@[simp] theorem deliver_inputs (m : Message) (s : State) : (deliver m s).inputs = s.inputs := rfl
@[simp] theorem deliver_clock (m : Message) (s : State) : (deliver m s).clock = s.clock := rfl
@[simp] theorem deliver_draws (m : Message) (s : State) : (deliver m s).draws = s.draws + 1 := rfl

theorem st_eq_idle_iff (s : State) : s.st = .idle ↔ s.inFlight = none := by
  unfold State.st
  cases s.inFlight with
  | none => simp
  | some f => cases h : f.wait <;> simp [h, Wait.toSt]

theorem cur_eq_none_iff (s : State) : s.cur = none ↔ s.inFlight = none := by simp [State.cur]

theorem retry_eq_none_iff (s : State) : s.retry = none ↔ s.inFlight = none := by simp [State.retry]

end Sys2Proof.Machine
end

