-- ==== Sys2Proof/Laws/Ops.lean ====
section
/-! SUPPORT. For each shared operation of the send machine and the fan-out, one lemma that says what it can do. -/

namespace Sys2Proof.Machine

/-- What no operation of the send machine touches, and that it only appends to the trace (R132, R58). -/
structure SendFrame (s t : State) : Prop where
  buf : t.buf = s.buf
  lastStamp : t.lastStamp = s.lastStamp
  observers : t.observers = s.observers
  inputs : t.inputs = s.inputs
  clock : t.clock = s.clock
  draws : t.draws = s.draws
  trace : s.trace <+: t.trace

theorem SendFrame.refl (s : State) : SendFrame s s := ⟨rfl, rfl, rfl, rfl, rfl, rfl, List.prefix_rfl⟩

theorem SendFrame.trans {s t u : State} (h : SendFrame s t) (k : SendFrame t u) : SendFrame s u :=
  ⟨k.buf.trans h.buf, k.lastStamp.trans h.lastStamp, k.observers.trans h.observers, k.inputs.trans h.inputs,
    k.clock.trans h.clock, k.draws.trans h.draws, h.trace.trans k.trace⟩

/-- The pair `Arm`, `Transmit` as one update. -/
theorem armAndTransmit_eq (m : Message) (s : State) :
    armAndTransmit m s = { s with
      deadline := some (longTimeout m)
      trace := s.trace ++ [.arm (longTimeout m), .transmit (appendChecksum m.bytes)] } := by
  simp [armAndTransmit, transmit, arm, emit]

/-- `Cancel` as one update. -/
theorem cancel_eq (s : State) :
    cancel s = { s with
      deadline := none
      trace := s.trace ++ (if s.deadline.isSome then [OutEvent.cancel] else []) } := by
  unfold cancel emit
  split <;> rename_i h
  · cases s; simp_all
  · simp [h]

theorem startNext_busy {s : State} {f : InFlight} (h : s.inFlight = some f) : startNext s = s := by
  simp [startNext, h]

theorem startNext_empty {s : State} (h : s.queue = []) : startNext s = s := by
  unfold startNext
  split <;> simp_all

theorem startNext_idle {s : State} {m : Message} {rest : List Message} (hi : s.inFlight = none)
    (hq : s.queue = m :: rest) :
    startNext s = armAndTransmit m
      { s with queue := rest, inFlight := some { cur := m, retry := retryInit, wait := .sending } } := by
  simp [startNext, hi, hq]

/-- `StartNext` does nothing, or sends the head of the queue from an idle machine (R155). -/
theorem startNext_cases (s : State) :
    startNext s = s ∧ (s.inFlight = none → s.queue = []) ∨
    ∃ m rest, s.inFlight = none ∧ s.queue = m :: rest ∧ startNext s = armAndTransmit m
      { s with queue := rest, inFlight := some { cur := m, retry := retryInit, wait := .sending } } := by
  cases hi : s.inFlight with
  | some f => exact .inl ⟨startNext_busy hi, by simp⟩
  | none =>
    cases hq : s.queue with
    | nil => exact .inl ⟨startNext_empty hq, fun _ => rfl⟩
    | cons m rest => exact .inr ⟨m, rest, rfl, rfl, startNext_idle hi hq⟩

/-- `AckMatch` ignores the Message, completes the send, moves to an awaiting state with the short timeout, or resends
(R159 to R167). -/
theorem ackMatch_cases (K : Classifier) (m : Message) (s : State) :
    ackMatch K m s = s ∨
    ∃ f, s.inFlight = some f ∧
      (ackMatch K m s = complete s ∨
        (m.bytes = f.cur.bytes ∧ cmdClass K f.cur.bytes = .imm ∧ ackMatch K m s =
          arm shortTimeout { s with inFlight := some { f with wait := .awaitingDigitalPacketAck } }) ∨
        (m.bytes = f.cur.bytes ∧ cmdClass K f.cur.bytes = .switchAck ∧ ackMatch K m s =
          arm shortTimeout { s with inFlight := some { f with wait := .awaitingSwitchAck } }) ∨
        (f.wait ≠ .sending ∧ ackMatch K m s = resend f s)) := by
  unfold ackMatch
  cases hf : s.inFlight with
  | none => exact .inl rfl
  | some f =>
    simp only [Option.some.injEq, exists_eq_left']
    split
    · rename_i he
      unfold echo
      cases hc : cmdClass K f.cur.bytes <;> simp [he]
    · unfold matchReply
      cases f.wait <;> simp only [] <;> (repeat' split) <;> simp

theorem emit_frame (e : OutEvent) (s : State) : SendFrame s (emit e s) :=
  ⟨rfl, rfl, rfl, rfl, rfl, rfl, List.prefix_append _ _⟩

theorem arm_frame (d : Duration) (s : State) : SendFrame s (arm d s) :=
  ⟨rfl, rfl, rfl, rfl, rfl, rfl, List.prefix_append _ _⟩

theorem armAndTransmit_frame (m : Message) (s : State) : SendFrame s (armAndTransmit m s) := by
  rw [armAndTransmit_eq]
  exact ⟨rfl, rfl, rfl, rfl, rfl, rfl, List.prefix_append _ _⟩

theorem cancel_frame (s : State) : SendFrame s (cancel s) := by
  rw [cancel_eq]
  exact ⟨rfl, rfl, rfl, rfl, rfl, rfl, List.prefix_append _ _⟩

/-- A change of the send machine's own elements is within the frame. -/
theorem SendFrame.update {s t : State} (h : SendFrame s t) (q : List Message) (f : Option InFlight)
    (d : Option Duration) : SendFrame s { t with queue := q, inFlight := f, deadline := d } :=
  ⟨h.buf, h.lastStamp, h.observers, h.inputs, h.clock, h.draws, h.trace⟩

theorem startNext_frame (s : State) : SendFrame s (startNext s) := by
  rcases startNext_cases s with ⟨h, -⟩ | ⟨m, rest, -, -, h⟩ <;> rw [h]
  · exact .refl s
  · exact ((SendFrame.refl s).update _ _ s.deadline).trans (armAndTransmit_frame _ _)

theorem complete_frame (s : State) : SendFrame s (complete s) :=
  (((SendFrame.refl s).update s.queue none s.deadline).trans (cancel_frame _)).trans (startNext_frame _)

theorem resend_frame (f : InFlight) (s : State) : SendFrame s (resend f s) :=
  ((SendFrame.refl s).update s.queue _ s.deadline).trans (armAndTransmit_frame _ _)

theorem expire_frame (f : InFlight) (s : State) : SendFrame s (expire f s) := by
  unfold expire
  split
  · exact ((SendFrame.refl s).update s.queue none s.deadline).trans (startNext_frame _)
  · exact ((SendFrame.refl s).update s.queue _ s.deadline).trans (armAndTransmit_frame _ _)

theorem ackMatch_frame (K : Classifier) (m : Message) (s : State) : SendFrame s (ackMatch K m s) := by
  rcases ackMatch_cases K m s with h | ⟨f, -, h | ⟨-, -, h⟩ | ⟨-, -, h⟩ | ⟨-, h⟩⟩ <;> rw [h]
  · exact .refl s
  · exact complete_frame s
  · exact ((SendFrame.refl s).update s.queue _ s.deadline).trans (arm_frame _ _)
  · exact ((SendFrame.refl s).update s.queue _ s.deadline).trans (arm_frame _ _)
  · exact resend_frame f s

theorem ackMatch_idle {K : Classifier} {m : Message} {s : State} (h : s.inFlight = none) : ackMatch K m s = s := by
  simp [ackMatch, h]

/-! No operation of the send machine reads the buffer, so each commutes with a change of it (R132). -/

theorem startNext_withBuf (s : State) (b : List Byte) : startNext { s with buf := b } = { startNext s with buf := b } := by
  obtain ⟨_, _, q, fl, _, _, _, _, _, _⟩ := s
  cases fl <;> cases q <;> rfl

theorem cancel_withBuf (s : State) (b : List Byte) : cancel { s with buf := b } = { cancel s with buf := b } := by
  obtain ⟨_, _, _, _, dl, _, _, _, _, _⟩ := s
  cases dl <;> rfl

theorem complete_withBuf (s : State) (b : List Byte) : complete { s with buf := b } = { complete s with buf := b } := by
  unfold complete
  rw [← startNext_withBuf, ← cancel_withBuf]

theorem echo_withBuf (K : Classifier) (f : InFlight) (s : State) (b : List Byte) :
    echo K f { s with buf := b } = { echo K f s with buf := b } := by
  unfold echo
  cases cmdClass K f.cur.bytes with
  | ordinary => exact complete_withBuf s b
  | imm => rfl
  | switchAck => rfl

theorem matchReply_withBuf (K : Classifier) (m : Message) (f : InFlight) (s : State) (b : List Byte) :
    matchReply K m f { s with buf := b } = { matchReply K m f s with buf := b } := by
  unfold matchReply
  have hc := complete_withBuf s b
  cases f.wait with
  | sending => rfl
  | awaitingDigitalPacketAck =>
    cases K.isImmAccepted m.bytes
    · cases K.isImmBufferFull m.bytes <;> rfl
    · exact hc
  | awaitingSwitchAck =>
    cases K.isSwitchAccepted m.bytes
    · cases K.isSwitchRejected m.bytes <;> rfl
    · exact hc

theorem ackMatch_withBuf (K : Classifier) (m : Message) (s : State) (b : List Byte) :
    ackMatch K m { s with buf := b } = { ackMatch K m s with buf := b } := by
  obtain ⟨b0, ls, q, fl, dl, os, tr, inp, cl, dr⟩ := s
  cases fl with
  | none => rfl
  | some f =>
    by_cases he : m.bytes = f.cur.bytes
    · simp only [ackMatch, he, if_true]
      exact echo_withBuf K f ⟨b0, ls, q, some f, dl, os, tr, inp, cl, dr⟩ b
    · simp only [ackMatch, he, if_false]
      exact matchReply_withBuf K m f ⟨b0, ls, q, some f, dl, os, tr, inp, cl, dr⟩ b

theorem insertAt_perm {α : Type} (x : α) (l : List α) (n : Nat) : (insertAt x l n).Perm (x :: l) := by
  induction l generalizing n with
  | nil => exact .refl _
  | cons y ys ih =>
    cases n with
    | zero => exact .refl _
    | succ n => exact ((ih n).cons y).trans (.swap x y ys)

/-- Whatever the draw, a delivery order holds each observer exactly as often as the list it is made from (R192). -/
theorem arrange_perm {α : Type} (slot : Nat → Nat) (l : List α) : (arrange slot l).Perm l := by
  induction l with
  | nil => exact .refl _
  | cons x xs ih => exact (insertAt_perm x _ _).trans (ih.cons x)

@[simp] theorem mem_arrange {α : Type} {slot : Nat → Nat} {l : List α} {x : α} : x ∈ arrange slot l ↔ x ∈ l :=
  (arrange_perm slot l).mem_iff

theorem mem_insertId {x o : ObserverId} {os : List ObserverId} : x ∈ insertId o os ↔ x = o ∨ x ∈ os := by
  induction os with
  | nil => simp [insertId]
  | cons y ys ih =>
    unfold insertId
    split
    · simp
    · simp [ih, or_left_comm]

/-- Adding keeps the observer set's canonical form. -/
theorem addId_rising {o : ObserverId} {os : List ObserverId} (h : RisingIds os) : RisingIds (addId o os) := by
  unfold addId
  split
  · exact h
  · rename_i hn
    induction os with
    | nil => simp [insertId]
    | cons y ys ih =>
      have hy := List.pairwise_cons.mp h
      simp only [List.mem_cons, not_or] at hn
      unfold insertId
      split
      · rename_i hlt
        refine List.pairwise_cons.mpr ⟨fun z hz => ?_, h⟩
        rcases List.mem_cons.mp hz with rfl | hz
        · exact hlt
        · exact hlt.trans (hy.1 z hz)
      · refine List.pairwise_cons.mpr ⟨fun z hz => ?_, ih hy.2 hn.2⟩
        rcases mem_insertId.mp hz with rfl | hz
        · exact lt_of_le_of_ne (not_lt.mp ‹_›) (Ne.symm hn.1)
        · exact hy.1 z hz

/-- Removing keeps the observer set's canonical form. -/
theorem removeId_rising {o : ObserverId} {os : List ObserverId} (h : RisingIds os) : RisingIds (removeId o os) :=
  h.filter _

end Sys2Proof.Machine
end

