-- ==== Sys2Proof/Laws/PerInstr.lean ====
section
/-! SUPPORT. Statements made per instruction. `WireForm`: what the encoder writes for a well-formed instruction is a DATA
byte, or a candidate frame whose opcode alone has its top bit set and whose length is the one R122 computes. -/

namespace Sys2Proof.Laws.WireForm

open Sys2Proof.Machine

/-- R70, R77, R122: the form of an instruction's bytes. -/
def Statement (i : Instr) : Prop :=
  i.wellFormed = true → ∀ w, encode i = some w → ∃ b body, w = b :: body ∧ clean body = true ∧
    (top b = false ∧ body = [] ∨ top b = true ∧ frameLength w = some w.length)

/-- An instruction without an encoding (R80) has no bytes to speak of. -/
theorem of_none {i : Instr} (h : encode i = none) : Statement i := by
  intro _ w hw
  rw [h] at hw
  cases hw

theorem data (v : BitVec 7) : Statement (.data v) := by
  rintro - w ⟨⟩
  exact ⟨byteData v, [], rfl, rfl, .inl ⟨top_byteData v, rfl⟩⟩

theorem f2 (id : BitVec 5) (c : Byte) : Statement (.f2 id c) := by
  rintro h w ⟨⟩
  refine ⟨opByte 0b100#3 id, [c], rfl, ?_, .inr ⟨by simp, ?_⟩⟩
  · simp only [Instr.wellFormed, Bool.and_eq_true] at h
    exact h.1.1
  · simp [frameF2, frameLength_cons, lengthClass_opByte]

theorem f4 (id : BitVec 5) (d1 d2 c : Byte) : Statement (.f4 id d1 d2 c) := by
  rintro h w ⟨⟩
  refine ⟨opByte 0b101#3 id, [d1, d2, c], rfl, ?_, .inr ⟨by simp, ?_⟩⟩
  · simp only [Instr.wellFormed, Bool.and_eq_true] at h
    exact h.1
  · simp [frameF4, frameLength_cons, lengthClass_opByte]

theorem f6 (id : BitVec 5) (d1 d2 d3 d4 c : Byte) : Statement (.f6 id d1 d2 d3 d4 c) := by
  rintro h w ⟨⟩
  refine ⟨opByte 0b110#3 id, [d1, d2, d3, d4, c], rfl, h, .inr ⟨by simp, ?_⟩⟩
  simp [frameF6, frameLength_cons, lengthClass_opByte]

theorem fv (id : BitVec 5) (len : Byte) (rest : List Byte) : Statement (.fv id len rest) := by
  rintro h w ⟨⟩
  simp only [Instr.wellFormed, Bool.and_eq_true, decide_eq_true_eq] at h
  refine ⟨opByte 0b111#3 id, len :: rest, rfl, h.1, .inr ⟨by simp, ?_⟩⟩
  simp [frameFV, frameLength_cons, lengthClass_opByte, ← h.2]

theorem powerOn : Statement .powerOn := by
  rintro - w ⟨⟩
  exact ⟨0x83, [0x7C], rfl, rfl, .inr ⟨rfl, rfl⟩⟩

theorem powerOff : Statement .powerOff := by
  rintro - w ⟨⟩
  exact ⟨0x82, [0x7D], rfl, rfl, .inr ⟨rfl, rfl⟩⟩

theorem getOpSwDataAP1 : Statement .getOpSwDataAP1 := by
  rintro - w ⟨⟩
  exact ⟨0xBB, [0x7F, 0x00, 0x3B], rfl, rfl, .inr ⟨rfl, rfl⟩⟩

theorem receive (chunk : List Byte) (now : Time) : Statement (.receive chunk now) := of_none rfl

theorem enqueue (m : Message) : Statement (.enqueue m) := of_none rfl

theorem timerExpiry : Statement .timerExpiry := of_none rfl

theorem detach : Statement .detach := of_none rfl

theorem addObserver (o : ObserverId) : Statement (.addObserver o) := of_none rfl

theorem removeObserver (o : ObserverId) : Statement (.removeObserver o) := of_none rfl

theorem reset : Statement .reset := of_none rfl

end Sys2Proof.Laws.WireForm
end

