-- ==== Sys2Proof/Laws/Reassembler.lean ====
section
/-! SUPPORT. What a pass of the reassembler's loop can do, and what the whole loop keeps (41_reassembler.md R128). -/

namespace Sys2Proof.Machine

@[simp] theorem judge_nil : judge [] = .await := rfl

/-- R121: a byte that is no candidate is discarded. -/
theorem judge_junk {b : Byte} {rest : List Byte} (h : top b = false) : judge (b :: rest) = .discard 1 := by
  simp [judge, h]

/-- At a candidate whose whole frame is there, the pass decides by length, scan and checksum (R124 to R127). -/
theorem judge_whole {b : Byte} {rest : List Byte} {L : Nat} (hb : top b = true)
    (hL : frameLength (b :: rest) = some L) (hlen : L ≤ (b :: rest).length) :
    judge (b :: rest) =
      if L < 2 then .discard 1
      else if clean (rest.take (L - 1)) = false then .discard 1
      else if isChecksumOK ((b :: rest).take L) = false then .discard L
      else .accept L := by
  simp only [judge, hb, hL, not_lt.mpr hlen, Bool.true_eq_false, if_false]

/-- R123: a candidate whose frame is not all there is waited on. -/
theorem judge_partial {b : Byte} {rest : List Byte} {L : Nat} (hb : top b = true)
    (hL : frameLength (b :: rest) = some L) (hlen : (b :: rest).length < L) : judge (b :: rest) = .await := by
  simp only [judge, hb, hL, hlen, Bool.true_eq_false, if_false, if_true]

/-- R122, R123: a candidate whose length is not known is waited on. -/
theorem judge_unknown {b : Byte} {rest : List Byte} (hb : top b = true) (hL : frameLength (b :: rest) = none) :
    judge (b :: rest) = .await := by
  simp only [judge, hb, hL, Bool.true_eq_false, if_false]

/-- R121, R123: the loop returns exactly on a buffer in rest form. -/
theorem judge_await_iff {buf : List Byte} : judge buf = .await ↔ RestForm buf := by
  cases buf with
  | nil => simp [RestForm]
  | cons b rest =>
    cases hb : top b with
    | false => simp [judge_junk hb, RestForm, hb]
    | true =>
      cases hL : frameLength (b :: rest) with
      | none => simp [judge_unknown hb hL, RestForm, hb, hL]
      | some L =>
        by_cases hlen : (b :: rest).length < L
        · simpa [judge_partial hb hL hlen, RestForm, hb, hL] using hlen
        · rw [judge_whole hb hL (not_lt.mp hlen)]
          simp only [RestForm, reduceCtorEq, List.cons.injEq, false_or]
          constructor
          · intro h
            split at h
            · cases h
            split at h
            · cases h
            split at h <;> cases h
          · rintro ⟨b', rest', ⟨rfl, rfl⟩, -, h⟩
            exact absurd (h L hL) hlen

/-- A pass that decides, by the group of bytes it consumes (R131 (a)): one byte, or a frame whose bytes behind the
candidate are clean. -/
theorem judge_decides {buf : List Byte} (h : judge buf ≠ .await) :
    ∃ b rest, buf = b :: rest ∧
      (judge buf = .discard 1 ∨
        ∃ L, 2 ≤ L ∧ L ≤ buf.length ∧ top b = true ∧ frameLength buf = some L ∧ clean (rest.take (L - 1)) = true ∧
          (isChecksumOK (buf.take L) = false ∧ judge buf = .discard L ∨
            isChecksumOK (buf.take L) = true ∧ judge buf = .accept L)) := by
  cases buf with
  | nil => exact absurd judge_nil h
  | cons b rest =>
    refine ⟨b, rest, rfl, ?_⟩
    cases hb : top b with
    | false => exact .inl (judge_junk hb)
    | true =>
      cases hL : frameLength (b :: rest) with
      | none => exact absurd (judge_unknown hb hL) h
      | some L =>
        by_cases hlen : (b :: rest).length < L
        · exact absurd (judge_partial hb hL hlen) h
        · have hw := judge_whole hb hL (not_lt.mp hlen)
          split at hw
          · exact .inl hw
          rename_i h2
          split at hw
          · exact .inl hw
          rename_i hc
          refine .inr ⟨L, not_lt.mp h2, not_lt.mp hlen, rfl, rfl, by simpa using hc, ?_⟩
          split at hw
          · exact .inl ⟨‹_›, hw⟩
          · rename_i hk
            exact .inr ⟨by simpa using hk, hw⟩

theorem judge_discard {buf : List Byte} {k : Nat} (h : judge buf = .discard k) : 1 ≤ k ∧ k ≤ buf.length := by
  obtain ⟨b, rest, rfl, h1 | ⟨L, h2, hl, -, -, -, ⟨-, h1⟩ | ⟨-, h1⟩⟩⟩ := judge_decides (buf := buf) (by simp [h])
  all_goals rw [h1] at h; cases h
  · simp
  · omega

/-- R133: what a pass takes as a frame is a well-formed frame. -/
theorem judge_accept {buf : List Byte} {k : Nat} (h : judge buf = .accept k) :
    2 ≤ k ∧ k ≤ buf.length ∧ WFF (buf.take k) = true := by
  obtain ⟨b, rest, rfl, h1 | ⟨L, h2, hl, hb, hL, hc, ⟨-, h1⟩ | ⟨hk, h1⟩⟩⟩ := judge_decides (buf := buf) (by simp [h])
  all_goals rw [h1] at h; cases h
  refine ⟨h2, hl, WFF_iff.mpr ⟨b, rest.take (k - 1), ?_, ?_, hb, hc, ?_, hk⟩⟩
  · rw [List.take_cons (by omega)]
  · simp only [List.length_take]
    simp only [List.length_cons] at hl
    omega
  · rw [List.take_cons (by omega)]
    simp only [List.length_cons, List.length_take] at hl ⊢
    rw [show min (k - 1) rest.length + 1 = k by omega]
    rcases frameLength_cases hL with h | h | h | ⟨len, tl, rfl, h⟩
    · obtain ⟨c, tl, rfl⟩ : ∃ c tl, rest = c :: tl := List.exists_cons_of_length_pos (by omega)
      simpa [frameLength, h] using hL
    · obtain ⟨c, tl, rfl⟩ : ∃ c tl, rest = c :: tl := List.exists_cons_of_length_pos (by omega)
      simpa [frameLength, h] using hL
    · obtain ⟨c, tl, rfl⟩ : ∃ c tl, rest = c :: tl := List.exists_cons_of_length_pos (by omega)
      simpa [frameLength, h] using hL
    · rw [List.take_cons (by omega)]
      simpa [frameLength] using hL

/-- A well-formed frame at the head of the buffer is taken as itself (R131 (b)). -/
theorem judge_WFF {g : List Byte} (hg : WFF g = true) (more : List Byte) : judge (g ++ more) = .accept g.length := by
  obtain ⟨b, body, rfl, h1, hb, hc, hL, hk⟩ := WFF_iff.mp hg
  have hL' := frameLength_append (more := more) hL
  rw [List.cons_append] at hL' ⊢
  rw [judge_whole hb hL' (by simp)]
  have h2 : ¬ (b :: body).length < 2 := by simp only [List.length_cons]; omega
  have ht : (body ++ more).take ((b :: body).length - 1) = body := by simp
  have ht' : (b :: (body ++ more)).take (b :: body).length = b :: body := by simp
  simp only [h2, ht, ht', hc, hk, if_false, Bool.true_eq_false]

/-- A pass that decides reads only bytes already buffered (R130). -/
theorem judge_append {buf : List Byte} (h : judge buf ≠ .await) (more : List Byte) :
    judge (buf ++ more) = judge buf := by
  cases buf with
  | nil => exact absurd judge_nil h
  | cons b rest =>
    cases hb : top b with
    | false => rw [List.cons_append, judge_junk hb, judge_junk hb]
    | true =>
      cases hL : frameLength (b :: rest) with
      | none => exact absurd (judge_unknown hb hL) h
      | some L =>
        by_cases hlen : (b :: rest).length < L
        · exact absurd (judge_partial hb hL hlen) h
        · have hlen' := not_lt.mp hlen
          have hL' := frameLength_append (more := more) hL
          rw [List.cons_append] at hL' ⊢
          rw [judge_whole hb hL hlen', judge_whole hb hL' (by simp only [List.length_cons, List.length_append] at hlen' ⊢; omega)]
          rw [List.take_append_of_le_length (by simp only [List.length_cons] at hlen'; omega),
            ← List.cons_append, List.take_append_of_le_length hlen']

@[simp] theorem feed_buf (K : Classifier) (now : Time) (f : List Byte) (s : State) : (feed K now f s).buf = s.buf := by
  simp [feed, (ackMatch_frame K _ _).buf]

/-- Feeding a frame does not depend on the buffer (R132). -/
theorem feed_withBuf (K : Classifier) (now : Time) (f : List Byte) (s : State) (b : List Byte) :
    feed K now f { s with buf := b } = { feed K now f s with buf := b } := by
  unfold feed
  exact congrArg (deliver (decodedMessage f s.lastStamp now))
    (ackMatch_withBuf K (decodedMessage f s.lastStamp now) { s with lastStamp := some now } b)

/-- What `feed` touches of what is not the send machine (R127). -/
theorem feed_frame (K : Classifier) (now : Time) (f : List Byte) (s : State) :
    (feed K now f s).observers = s.observers ∧ (feed K now f s).inputs = s.inputs ∧
      (feed K now f s).clock = s.clock ∧ (feed K now f s).lastStamp = some now ∧
      s.trace <+: (feed K now f s).trace := by
  have h := ackMatch_frame K (decodedMessage f s.lastStamp now) { s with lastStamp := some now }
  exact ⟨h.observers, h.inputs, h.clock, h.lastStamp, h.trace.trans (List.prefix_append _ _)⟩

/-- More passes than bytes make no difference (R129). -/
theorem receiveLoop_fuel (K : Classifier) (now : Time) :
    ∀ (n m : Nat) (s : State), s.buf.length ≤ n → s.buf.length ≤ m →
      receiveLoop K now n s = receiveLoop K now m s := by
  intro n
  induction n with
  | zero =>
    intro m s hn hm
    have hb : s.buf = [] := List.length_eq_zero_iff.mp (by omega)
    cases m <;> simp [receiveLoop, hb]
  | succ n ih =>
    intro m s hn hm
    cases m with
    | zero =>
      have hb : s.buf = [] := List.length_eq_zero_iff.mp (by omega)
      simp [receiveLoop, hb]
    | succ m =>
      unfold receiveLoop
      split
      · rfl
      · rename_i k hk
        have := judge_discard hk
        exact ih m _ (by simp only [List.length_drop]; omega) (by simp only [List.length_drop]; omega)
      · rename_i k hk
        have := judge_accept hk
        exact ih m _ (by simp only [feed_buf, List.length_drop]; omega) (by simp only [feed_buf, List.length_drop]; omega)

/-- The loop returns at once on a buffer in rest form. -/
theorem drain_await {K : Classifier} {now : Time} {s : State} (h : judge s.buf = .await) : drain K now s = s := by
  unfold drain
  cases s.buf.length <;> simp [receiveLoop, h]

/-- A pass that discards, then the rest of the loop. -/
theorem drain_discard {K : Classifier} {now : Time} {s : State} {k : Nat} (h : judge s.buf = .discard k) :
    drain K now s = drain K now { s with buf := s.buf.drop k } := by
  have hk := judge_discard h
  unfold drain
  rw [show s.buf.length = (s.buf.length - 1) + 1 by omega, receiveLoop, h]
  exact receiveLoop_fuel K now _ _ _ (by simp only [List.length_drop]; omega) (by simp)

/-- A pass that takes a frame, then the rest of the loop. -/
theorem drain_accept {K : Classifier} {now : Time} {s : State} {k : Nat} (h : judge s.buf = .accept k) :
    drain K now s = drain K now (feed K now (s.buf.take k) { s with buf := s.buf.drop k }) := by
  have hk := judge_accept h
  unfold drain
  rw [show s.buf.length = (s.buf.length - 1) + 1 by omega, receiveLoop, h]
  exact receiveLoop_fuel K now _ _ _ (by simp only [feed_buf, List.length_drop]; omega) (by simp)

/-- Induction over the passes of a `receive`: a property of the states between passes that holds whenever the loop
returns, and goes back over a discarding pass and over a feeding one, holds at the start. -/
theorem drain_induction {K : Classifier} {now : Time} {P : State → Prop}
    (await : ∀ s, judge s.buf = .await → P s)
    (discard : ∀ s k, judge s.buf = .discard k → P { s with buf := s.buf.drop k } → P s)
    (accept : ∀ s k, judge s.buf = .accept k →
      P (feed K now (s.buf.take k) { s with buf := s.buf.drop k }) → P s) (s : State) : P s := by
  induction hn : s.buf.length using Nat.strong_induction_on generalizing s with
  | _ n ih =>
    cases hj : judge s.buf with
    | await => exact await s hj
    | discard k =>
      have := judge_discard hj
      exact discard s k hj (ih _ (by simp only [List.length_drop]; omega) _ rfl)
    | accept k =>
      have := judge_accept hj
      exact accept s k hj (ih _ (by simp only [feed_buf, List.length_drop]; omega) _ rfl)

/-- What every pass keeps, a `receive` keeps: taking bytes off the buffer, and feeding a well-formed frame. -/
theorem drain_keeps {K : Classifier} {now : Time} {P : State → Prop}
    (drop : ∀ s b, P s → P { s with buf := b })
    (feeds : ∀ s f, WFF f = true → P s → P (feed K now f s)) (s : State) (h : P s) : P (drain K now s) := by
  revert h
  refine drain_induction (K := K) (now := now) (P := fun s => P s → P (drain K now s)) ?_ ?_ ?_ s
  · intro s hj h
    rwa [drain_await hj]
  · intro s k hj ih h
    rw [drain_discard hj]
    exact ih (drop _ _ h)
  · intro s k hj ih h
    rw [drain_accept hj]
    exact ih (feeds _ _ (judge_accept hj).2.2 (drop _ _ h))

/-- When the loop returns the buffer is one it waits on (R129). -/
theorem drain_judge (K : Classifier) (now : Time) (s : State) : judge (drain K now s).buf = .await := by
  refine drain_induction (K := K) (now := now) (P := fun s => judge (drain K now s).buf = .await) ?_ ?_ ?_ s
  · intro s hj
    rwa [drain_await hj]
  · intro s k hj ih
    rwa [drain_discard hj]
  · intro s k hj ih
    rwa [drain_accept hj]

end Sys2Proof.Machine
end

