-- ==== Sys2Proof/Laws/Step.lean ====
section
/-! SUPPORT. What an instruction and a step can be made of. -/

namespace Sys2Proof.Machine

/-- The meaning of an instruction the bus carries (log 4). -/
theorem exec_wire {i : Instr} {w : List Byte} {s : State} (h : encode i = some w) :
    exec i s = .next (receiveWith Config.K w s.clock s) := by
  cases i <;> cases h <;> rfl

/-- An instruction is a `receive`, or one of the six other entry points. -/
theorem exec_cases (i : Instr) (s : State) :
    (∃ w now, exec i s = .next (receiveWith Config.K w now s) ∧ (∀ m, i ≠ .enqueue m) ∧ i ≠ .detach ∧ i ≠ .reset) ∨
    (∃ m, i = .enqueue m) ∨ i = .timerExpiry ∨ i = .detach ∨ (∃ o, i = .addObserver o) ∨
    (∃ o, i = .removeObserver o) ∨ i = .reset := by
  cases h : encode i with
  | some w =>
    refine .inl ⟨w, s.clock, exec_wire h, ?_, ?_, ?_⟩
    · rintro m rfl
      cases h
    · rintro rfl
      cases h
    · rintro rfl
      cases h
  | none =>
    cases i with
    | receive chunk now => exact .inl ⟨chunk, now, rfl, by simp, by simp, by simp⟩
    | enqueue m => exact .inr (.inl ⟨m, rfl⟩)
    | addObserver o => simp
    | removeObserver o => simp
    | timerExpiry => simp
    | detach => simp
    | reset => simp
    | _ => cases h

/-- A step that goes on waits, or runs an instruction on a state from which the environment's part has been taken. -/
theorem step_exec {s t : State} (h : step s = .next t) :
    t = s ∨ ∃ i now later, exec i { s with clock := now, inputs := later } = .next t := by
  unfold step fetch at h
  cases hi : s.inputs with
  | nil =>
    rw [hi] at h
    exact .inl (by cases h; rfl)
  | cons x later =>
    rw [hi] at h
    cases x with
    | call i => exact .inr ⟨i, s.clock, later, h⟩
    | wire now bytes =>
      simp only at h
      cases hd : decode bytes with
      | instr i left =>
        rw [hd] at h
        exact .inr ⟨i, _, _, h⟩
      | reject r =>
        rw [hd] at h
        exact .inr ⟨_, _, _, h⟩
    | overlapped ops => cases h
    | reentrant op inner => cases h

end Sys2Proof.Machine
end

