-- ==== Sys2Proof/Tests/Slice0.lean ====
section
/-! SUPPORT. The model's own tests: ill-formed terms, words written out from the spec, single steps on small states with
the expected results of 95_test_vectors.md, and for each obligation with hypotheses a witness that meets them. -/

namespace Sys2Proof.Tests

open Sys2Proof Sys2Proof.Machine

/-! ## Fixtures -/

/-- The fixture classifier K1 of 95_test_vectors.md section 0. -/
def K1 : Classifier where
  isImmPacket := fun b => b.head? == some 0xED
  isSwitchWithAck := fun b => b.head? == some 0xBD
  isImmAccepted := fun b => b == [0xB4, 0x6D, 0x7F]
  isImmBufferFull := fun b => b == [0xB4, 0x6D, 0x00]
  isSwitchAccepted := fun b => b == [0xB4, 0x3D, 0x7F]
  isSwitchRejected := fun b => b == [0xB4, 0x3D, 0x00]

def msg (bs : List Byte) : Message := { bytes := bs, stamp := 0, delta := 0 }

/-- Message IMM. -/
def imm : Message := msg [0xED, 0x0B, 0x7F, 0x24, 0x02, 0x03, 0x20, 0x00, 0x00, 0x00]

/-- Message SW. -/
def sw : Message := msg [0xBD, 0x05, 0x30]

def frameImm : List Byte := [0xED, 0x0B, 0x7F, 0x24, 0x02, 0x03, 0x20, 0x00, 0x00, 0x00, 0x63]
def frameSw : List Byte := [0xBD, 0x05, 0x30, 0x77]
def immAcc : List Byte := [0xB4, 0x6D, 0x7F, 0x59]
def immFull : List Byte := [0xB4, 0x6D, 0x00, 0x26]
def swAcc : List Byte := [0xB4, 0x3D, 0x7F, 0x09]
def swRej : List Byte := [0xB4, 0x3D, 0x00, 0x76]

/-- RV10: the 128-byte frame whose length byte is 0. -/
def frame128 : List Byte := 0xE5 :: 0x00 :: (List.replicate 125 0x01 ++ [0x1B])

/-- After reset, with observer 1 registered. -/
def idle1 : State := { State.reset with observers := [1] }

/-- A send in flight, with observer 1 registered. -/
def busy (m : Message) (retry : Int) (wait : Wait) (queue : List Message) : State :=
  { State.reset with
    inFlight := some { cur := m, retry := retry, wait := wait }
    deadline := some (longTimeout m)
    queue := queue
    observers := [1] }

/-- The state an outcome holds. -/
def outOf : Host.Outcome State Fault Refusal → Option State
  | .next s => some s
  | _ => none

/-- The outputs of an outcome. -/
def traceOf (o : Host.Outcome State Fault Refusal) : Option (List OutEvent) := (outOf o).map State.trace

/-- The refusal an outcome holds. -/
def refusalOf : Host.Outcome State Fault Refusal → Option Refusal
  | .refused r => some r
  | _ => none

/-! ## Well-formedness: a term each check refuses (R76, R77, R21; log 13) -/

theorem test_illformed_f2 : Instr.wellFormed (.f2 5 0x80) = false ∧ Instr.wellFormed (.f2 3 0x7C) = false ∧
    Instr.wellFormed (.f2 2 0x7D) = false := by decide

theorem test_illformed_f4 : Instr.wellFormed (.f4 0 0x05 0xC0 0x1A) = false ∧
    Instr.wellFormed (.f4 0x1B 0x7F 0x00 0x3B) = false := by decide

theorem test_illformed_f6 : Instr.wellFormed (.f6 0x10 0x20 0x11 0x32 0x00 0xAC) = false := by decide

theorem test_illformed_fv : Instr.wellFormed (.fv 5 0x80 (List.replicate 126 0)) = false ∧
    Instr.wellFormed (.fv 5 0x03 [0x99]) = false ∧ Instr.wellFormed (.fv 5 0x04 [0x19]) = false ∧
    Instr.wellFormed (.fv 5 0x01 []) = false := by decide +kernel

theorem test_illformed_enqueue : Instr.wellFormed (.enqueue (msg [])) = false := by decide

/-! ## Decoding: words written bit by bit from R71 to R79 -/

theorem test_decode_data : decode [0b0_1010101#8] = .instr (.data 0x55) [] := by decide

theorem test_decode_f2 : decode [0b1_00_00101#8, 0b0_1111010#8] = .instr (.f2 5 0x7A) [] := by decide

theorem test_decode_f4 : decode [0b1_01_00000#8, 0b0_0000101#8, 0b0_1000000#8, 0b0_0011010#8] =
    .instr (.f4 0 0x05 0x40 0x1A) [] := by decide

theorem test_decode_f6 : decode [0b1_10_10000#8, 0x20, 0x11, 0x32, 0x00, 0x2C, 0x55] =
    .instr (.f6 0x10 0x20 0x11 0x32 0x00 0x2C) [0x55] := by decide

theorem test_decode_fv : decode [0b1_11_00101#8, 0b0_0000011#8, 0b0_0011001#8] = .instr (.fv 5 0x03 [0x19]) [] := by
  decide

theorem test_decode_fv_128 : decode frame128 = .instr (.fv 5 0x00 (List.replicate 125 0x01 ++ [0x1B])) [] := by
  decide +kernel

theorem test_decode_power_on : decode [0b1_00_00011#8, 0b0_1111100#8] = .instr .powerOn [] := by decide

theorem test_decode_power_off : decode [0b1_00_00010#8, 0b0_1111101#8] = .instr .powerOff [] := by decide

theorem test_decode_get_op_sw : decode [0b1_01_11011#8, 0b0_1111111#8, 0b0_0000000#8, 0b0_0111011#8] =
    .instr .getOpSwDataAP1 [] := by decide

/-- R78, RV7, RV13: what the decoder rejects, by name. -/
theorem test_decode_rejects : decode [] = .reject .noBytes ∧ decode [0xBB, 0x83, 0x7C] = .reject .incomplete ∧
    decode [0xE5, 0x90, 0x83, 0x7C] = .reject .incomplete ∧ decode [0xFF, 0x01] = .reject .shortFrame ∧
    decode [0x83, 0xFC] = .reject .falseOpcode := by decide

/-- The words of spec/opcode_table.json; the entry points have none (R80). -/
theorem test_table_words : decodeTableWord 8 0x00 = some (.data 0) ∧ decodeTableWord 8 0x80 = some (.f2 0 0) ∧
    decodeTableWord 8 0xA0 = some (.f4 0 0 0 0) ∧ decodeTableWord 8 0xC0 = some (.f6 0 0 0 0 0 0) ∧
    decodeTableWord 8 0xE0 = some (.fv 0 0 (List.replicate 126 0)) ∧ decodeTableWord 16 0x837C = some .powerOn ∧
    decodeTableWord 16 0x827D = some .powerOff ∧ decodeTableWord 32 0xBB7F003B = some .getOpSwDataAP1 ∧
    decodeTableWord 0 0 = none := by decide +kernel

/-- A presented frame is the first thing that runs after reset: `83 7C` is fed on at the clock sample 0. -/
theorem test_step_runs_presented_word :
    (outOf (step (State.reset.withFetchWord 16 0x837C))).map State.lastStamp = some (some 0) := by decide +kernel

theorem test_step_waits_and_refuses : outOf (step State.reset) = some State.reset ∧
    refusalOf (step { State.reset with inputs := [.overlapped [.detach, .timerExpiry]] }) = some .notSerialised ∧
    refusalOf (step { State.reset with inputs := [.reentrant (.receive [0x83, 0x7C] 0) .detach] }) =
      some .reentrantCall := by decide +kernel

/-! ## Checksum, lengths, timeouts (95_test_vectors.md sections 2, 3, 5) -/

theorem test_checksum : checksum [] = 0xFF ∧ appendChecksum [0xBB, 0x7F, 0x00] = [0xBB, 0x7F, 0x00, 0x3B] ∧
    appendChecksum [0x83, 0x80] = [0x83, 0x80, 0xFC] ∧ isChecksumOK [0xA0, 0x05, 0x40, 0x1B] = false ∧
    isChecksumOK [] = false ∧ mkMessageFromFrame [0xFF] 0 0 = none ∧
    mkMessageFromFrame [0x83, 0x7C] 7 2 = some { bytes := [0x83], stamp := 7, delta := 2 } := by decide +kernel

theorem test_frame_length : frameLength [0x9F] = some 2 ∧ frameLength [0xBF] = some 4 ∧ frameLength [0xDF] = some 6 ∧
    frameLength [0xE0] = none ∧ frameLength [0xE5, 0x00] = some 128 ∧ frameLength [0xE5, 0xFF] = some 255 := by decide

theorem test_timeouts : longTimeout (msg [0x83]) = 3 / 833 ∧ longTimeout (msg [0x83, 0x80]) = 9 / 1666 ∧
    longTimeout imm = 33 / 1666 ∧ shortTimeout = 6 / 833 := by decide +kernel

/-! ## One instruction on a small state -/

/-- RV17; RV2: a DATA byte alone is dropped, and one that completes a frame feeds it on. -/
theorem test_data : outOf (exec (.data 0x7F) idle1) = some idle1 ∧
    traceOf (exec (.data 0x7C) { idle1 with buf := [0x83], clock := 20 }) =
      some [.deliver 1 { bytes := [0x83], stamp := 20, delta := 0 }] := by decide +kernel

/-- RV5: `83 7D` is dropped without a word. -/
theorem test_f2 : outOf (exec (.f2 3 0x7D) idle1) = some idle1 ∧
    traceOf (exec (.f2 5 0x7A) idle1) = some [.deliver 1 (msg [0x85])] := by decide +kernel

/-- RV16, RV19. -/
theorem test_f4 : traceOf (exec (.f4 0 0x05 0x40 0x1A) idle1) = some [.deliver 1 (msg [0xA0, 0x05, 0x40])] ∧
    outOf (exec (.f4 0 0x05 0x40 0x1B) idle1) = some idle1 := by decide +kernel

/-- RV15. -/
theorem test_f6 : traceOf (exec (.f6 0x10 0x20 0x11 0x32 0x00 0x2C) idle1) =
    some [.deliver 1 (msg [0xD0, 0x20, 0x11, 0x32, 0x00])] := by decide +kernel

/-- RV23, RV10. -/
theorem test_fv : traceOf (exec (.fv 5 0x03 [0x19]) idle1) = some [.deliver 1 (msg [0xE5, 0x03])] ∧
    traceOf (exec (.fv 5 0x00 (List.replicate 125 0x01 ++ [0x1B])) idle1) =
      some [.deliver 1 (msg (0xE5 :: 0x00 :: List.replicate 125 0x01))] := by decide +kernel

/-- W1. -/
theorem test_concrete_frames : traceOf (exec .powerOn idle1) = some [.deliver 1 (msg [0x83])] ∧
    traceOf (exec .powerOff idle1) = some [.deliver 1 (msg [0x82])] ∧
    traceOf (exec .getOpSwDataAP1 idle1) = some [.deliver 1 (msg [0xBB, 0x7F, 0x00])] := by decide +kernel

/-- RV6, RV7 (second chunk). -/
theorem test_receive_resync :
    traceOf (exec (.receive [0xBB, 0x7F, 0x83, 0x7C] 10) idle1) =
      some [.deliver 1 { bytes := [0x83], stamp := 10, delta := 0 }] ∧
    traceOf (exec (.receive [0x00] 20) { idle1 with buf := [0xBB, 0x83, 0x7C] }) =
      some [.deliver 1 { bytes := [0x83], stamp := 20, delta := 0 }] := by decide +kernel

/-- The sequence for `delta`, its last frame: a clock that runs backwards gives a negative delta. -/
theorem test_receive_delta :
    traceOf (exec (.receive [0x83, 0x7C] 125) { idle1 with lastStamp := some 130 }) =
      some [.deliver 1 { bytes := [0x83], stamp := 125, delta := -5 }] := by decide +kernel

/-- SV1, SV2. -/
theorem test_enqueue : traceOf (exec (.enqueue (msg [0x83])) State.reset) =
      some [.arm (3 / 833), .transmit [0x83, 0x7C]] ∧
    outOf (exec (.enqueue (msg [0x82])) (busy (msg [0x83]) 10 .sending [])) =
      some (busy (msg [0x83]) 10 .sending [msg [0x82]]) := by decide +kernel

/-- SV3, SV13 (the wait-state stays), SV4. -/
theorem test_timer_expiry :
    (outOf (exec .timerExpiry (busy imm 10 .awaitingDigitalPacketAck []))).map
      (fun s => (s.trace, s.retry, s.st)) =
      some ([.arm (33 / 1666), .transmit frameImm], some 9, .awaitingDigitalPacketAck) ∧
    (outOf (exec .timerExpiry (busy (msg [0x83]) 0 .sending []))).map
      (fun s => (s.trace, s.st, s.deadline)) = some ([], .idle, none) := by decide +kernel

/-- P2, 11th expiry: the next entry starts, no cancel. -/
theorem test_timer_expiry_starts_next :
    (outOf (exec .timerExpiry (busy (msg [0x82]) 0 .sending [msg [0x83]]))).map
      (fun s => (s.trace, s.cur, s.retry, s.queue)) =
      some ([.arm (3 / 833), .transmit [0x83, 0x7C]], some (msg [0x83]), some 10, []) := by decide +kernel

/-- SV17, P5: the half frame stays. -/
theorem test_detach :
    outOf (exec .detach { busy (msg [0x83]) 10 .sending [msg [0x82]] with buf := [0xBB, 0x7F] }) =
      some { idle1 with buf := [0xBB, 0x7F], trace := [.cancel] } := by decide +kernel

/-- P10. -/
theorem test_observers : (outOf (exec (.addObserver 1) { State.reset with observers := [1, 2] })).map State.observers =
      some [1, 2] ∧
    (outOf (exec (.addObserver 1) { State.reset with observers := [2] })).map State.observers = some [1, 2] ∧
    (outOf (exec (.removeObserver 1) { State.reset with observers := [1, 2] })).map State.observers = some [2] ∧
    (outOf (exec (.removeObserver 1) { State.reset with observers := [2] })).map State.observers = some [2] := by
  decide +kernel

/-- R230: a `cancel` for the armed deadline, everything else as after reset. -/
theorem test_reset : outOf (exec .reset { busy imm 3 .sending [msg [0x82]] with buf := [0x83], lastStamp := some 5 }) =
    some { State.reset with trace := [.cancel] } := by decide +kernel

/-! ## The acknowledgement matcher, under K1 -/

/-- P7: two echoes in one chunk. -/
theorem test_two_echoes :
    (receiveWith K1 [0x83, 0x7C, 0x82, 0x7D] 9 (busy (msg [0x83]) 10 .sending [msg [0x82]])).trace =
      [.cancel, .arm (3 / 833), .transmit [0x82, 0x7D], .deliver 1 { bytes := [0x83], stamp := 9, delta := 0 },
        .cancel, .deliver 1 { bytes := [0x82], stamp := 9, delta := 0 }] := by decide +kernel

/-- SV9, SV14: the echo of a special command. -/
theorem test_special_echo :
    (receiveWith K1 frameImm 1 (busy imm 7 .sending [])).st = .awaitingDigitalPacketAck ∧
    (receiveWith K1 frameImm 1 (busy imm 7 .sending [])).retry = some 7 ∧
    (receiveWith K1 frameImm 1 (busy imm 7 .sending [])).deadline = some (6 / 833) ∧
    (receiveWith K1 frameSw 1 (busy sw 10 .sending [])).st = .awaitingSwitchAck := by decide +kernel

/-- SV10, SV12, SV15: the accepting reply, and a reply of the other kind. -/
theorem test_accepted :
    (receiveWith K1 immAcc 2 (busy imm 10 .awaitingDigitalPacketAck [])).st = .idle ∧
    (receiveWith K1 swAcc 2 (busy imm 10 .awaitingDigitalPacketAck [])).st = .awaitingDigitalPacketAck ∧
    (receiveWith K1 swAcc 2 (busy sw 10 .awaitingSwitchAck [])).st = .idle := by decide +kernel

/-- SV11, SV16: the busy replies. -/
theorem test_busy_reply :
    (receiveWith K1 immFull 2 (busy imm 6 .awaitingDigitalPacketAck [])).trace =
      [.arm (33 / 1666), .transmit frameImm, .deliver 1 { bytes := [0xB4, 0x6D, 0x00], stamp := 2, delta := 0 }] ∧
    (receiveWith K1 immFull 2 (busy imm 6 .awaitingDigitalPacketAck [])).retry = some 10 ∧
    (receiveWith K1 swRej 2 (busy sw 6 .awaitingSwitchAck [])).st = .awaitingSwitchAck ∧
    (receiveWith K1 swRej 2 (busy sw 6 .awaitingSwitchAck [])).retry = some 10 := by decide +kernel

/-! ## Witnesses: the hypotheses of each obligation that has some, met together, clause by clause -/

theorem test_witness_DecodeInvertsEncode :
    Instr.wellFormed (.data 0x7F) = true ∧ encode (.data 0x7F) = some [0x7F] ∧
    Instr.wellFormed (.f2 3 0x7D) = true ∧ encode (.f2 3 0x7D) = some [0x83, 0x7D] ∧
    Instr.wellFormed (.f4 0x1F 0x7F 0x7F 0x7F) = true ∧ encode (.f4 0x1F 0x7F 0x7F 0x7F) = some [0xBF, 0x7F, 0x7F, 0x7F] ∧
    Instr.wellFormed (.f6 0 0 0 0 0 0x7F) = true ∧ encode (.f6 0 0 0 0 0 0x7F) = some [0xC0, 0, 0, 0, 0, 0x7F] ∧
    Instr.wellFormed (.fv 0x1D 0x02 []) = true ∧ encode (.fv 0x1D 0x02 []) = some [0xFD, 0x02] ∧
    Instr.wellFormed (.fv 5 0x00 (List.replicate 125 0x01 ++ [0x1B])) = true ∧
    encode (.fv 5 0x00 (List.replicate 125 0x01 ++ [0x1B])) = some frame128 ∧
    Instr.wellFormed .powerOn = true ∧ encode .powerOn = some [0x83, 0x7C] ∧
    encode .powerOff = some [0x82, 0x7D] ∧ encode .getOpSwDataAP1 = some [0xBB, 0x7F, 0x00, 0x3B] := by decide +kernel

theorem test_witness_DecodedInstructionReencodes :
    decode [0xFD, 0x02, 0x55] = .instr (.fv 0x1D 0x02 []) [0x55] := by decide

theorem test_witness_FrameLengthByOpcodeRange :
    (0x80#8 &&& 0xE0 = 0x80 ∧ 0x9F#8 &&& 0xE0 = 0x80) ∧ (0xA0#8 &&& 0xE0 = 0xA0 ∧ 0xBF#8 &&& 0xE0 = 0xA0) ∧
    (0xC0#8 &&& 0xE0 = 0xC0 ∧ 0xDF#8 &&& 0xE0 = 0xC0) ∧ (0xE0#8 &&& 0xE0 = 0xE0 ∧ 0xFF#8 &&& 0xE0 = 0xE0) ∧
    (0x01#8 ≠ 0x00 ∧ 0xFF#8 ≠ 0x00) := by decide

theorem test_witness_DecoderAgreesWithReassembler : top 0x80 = true ∧ top 0xFF = true ∧
    decode [0x80, 0x7F] = .instr (.f2 0 0x7F) [] ∧ decode [0xFF] = .reject .incomplete ∧
    decode [0xFF, 0x01] = .reject .shortFrame ∧ decode [0x80, 0x80] = .reject .falseOpcode := by decide

theorem test_witness_CornerLengthBytes : State.reset.buf = [] ∧ top 0x80 = true ∧ top 0xFF = true := by decide

theorem test_witness_ChecksumRoundTrip : [0xFF#8] ≠ [] ∧ isChecksumOK [0xFF] = true := by decide

theorem test_witness_ChecksumTestEquivalentForms : [0x83#8, 0x7C].Perm [0x7C, 0x83] := by decide

theorem test_witness_ChecksumDetectsSingleByteErrors :
    isChecksumOK ([0x83] ++ 0x7C :: []) = true ∧ (0x7D : Byte) ≠ 0x7C ∧
    isChecksumOK ([0xBB] ++ 0x7F :: [0x00] ++ 0x3B :: []) = true ∧
    isChecksumOK [0x83, 0x7C] = true ∧ isChecksumOK [0x82, 0x7D] = true := by decide

theorem test_witness_MessageFromFrameValidates : 2 ≤ [0x83#8, 0x7C].length ∧ isChecksumOK [0x83, 0x7C] = true ∧
    mkMessageFromFrame [0x83, 0x7C] 0 0 = some (msg [0x83]) := by decide

/-- Both what is left over and nothing left over. -/
theorem test_witness_StepRunsDecodedInstruction :
    ({ State.reset with inputs := [.wire 5 [0x83, 0x7C, 0x55]] } : State).inputs = .wire 5 [0x83, 0x7C, 0x55] :: [] ∧
    decode [0x83, 0x7C, 0x55] = .instr .powerOn [0x55] ∧ decode [0x55] = .instr (.data 0x55) [] := by decide

theorem test_witness_StepFollowsSchedule :
    ({ State.reset with inputs := [.call .detach] } : State).inputs = .call .detach :: [] ∧
    ({ State.reset with inputs := [.wire 5 [0xBB]] } : State).inputs = .wire 5 [0xBB] :: [] ∧
    decode [0xBB] = .reject .incomplete ∧ State.reset.inputs = [] ∧
    ({ State.reset with inputs := [.overlapped [.detach]] } : State).inputs = .overlapped [.detach] :: [] ∧
    ({ State.reset with inputs := [.reentrant .detach .reset] } : State).inputs = .reentrant .detach .reset :: [] := by
  decide

theorem test_witness_BusBytesCutEqualsOneReceive :
    ({ State.reset with inputs := [.wire 5 [0x55, 0x83, 0x7C, 0xBB]] } : State).inputs =
      .wire 5 [0x55, 0x83, 0x7C, 0xBB] :: [] := by decide

/-- A machine with a send in flight, a queue, a half frame buffered and an observer, about to run an expiry. -/
def invState : State := { busy (msg [0x83]) 10 .sending [msg [0x82]] with buf := [0xBB, 0x7F], inputs := [.call .timerExpiry] }

theorem test_witness_StepKeepsInvariant : Inv Config.K invState ∧ ∃ t, step invState = .next t := by
  refine ⟨⟨by decide, by decide +kernel, by decide, ?_, ?_, ?_, ?_, by decide, ?_⟩, _, rfl⟩
  · rintro f ⟨⟩
    decide
  · rintro f ⟨⟩ h
    cases h
  · rintro f ⟨⟩ h
    cases h
  · refine .inr ⟨0xBB, [0x7F], rfl, by decide, ?_⟩
    rintro L ⟨⟩
    decide
  · rintro d ⟨⟩
    decide +kernel

/-- A trace with the output pair of one send, one delivery, and an expiry to come. -/
def tracedState : State :=
  { invState with
    trace := [.arm (3 / 833), .transmit [0x83, 0x7C], .deliver 1 (msg [0x82])]
    deadline := some (3 / 833) }

theorem test_witness_StepKeepsTransmitsGuarded :
    TransmitsGuarded tracedState.trace ∧ ∃ t, step tracedState = .next t := by
  refine ⟨fun i f h => ?_, _, rfl⟩
  match i with
  | 0 => cases h
  | 1 =>
    cases h
    exact ⟨0, rfl, by decide +kernel⟩
  | 2 => cases h
  | n + 3 => cases h

theorem test_witness_StepDeliversOnlyWellFormed :
    DeliversWellFormed tracedState.trace ∧ ∃ t, step tracedState = .next t := by
  refine ⟨fun o m h => ?_, _, rfl⟩
  simp only [tracedState, List.mem_cons, reduceCtorEq, List.not_mem_nil, or_false, false_or,
    OutEvent.deliver.injEq] at h
  rw [h.2]
  decide

theorem test_witness_StepKeepsDeadlineMirrorsTimer :
    (∀ d, tracedState.deadline = some d → running tracedState.trace = some d) ∧ ∃ t, step tracedState = .next t := by
  refine ⟨?_, _, rfl⟩
  rintro d ⟨⟩
  rfl

theorem test_witness_WellFormedMessageLength : WF [0x83] = true ∧ WF frame128.dropLast = true := by decide +kernel

theorem test_witness_LeadingJunkIsDiscarded : idle1.buf = [] ∧ clean [0x00, 0x7F] = true := by decide

/-- The length unknown, and known but not reached. -/
theorem test_witness_PartialFrameIsAwaited : idle1.buf = [] ∧ top 0xE5 = true ∧ frameLength [0xE5] = none ∧
    top 0xBB = true ∧ frameLength [0xBB, 0x83, 0x7C] = some 4 ∧ [0xBB#8, 0x83, 0x7C].length < 4 := by decide

/-- The offending byte in the middle, and in the last place. -/
theorem test_witness_FalseOpcodeConsumesOneByte :
    idle1.buf = [] ∧ top 0xBB = true ∧ frameLength [0xBB, 0x7F, 0x83, 0x7C] = some 4 ∧
    4 ≤ [0xBB#8, 0x7F, 0x83, 0x7C].length ∧ 1 ≤ 2 ∧ 2 ≤ 4 - 1 ∧ [0xBB#8, 0x7F, 0x83, 0x7C][2]? = some 0x83 ∧
    top 0x83 = true ∧ frameLength [0x83, 0xFC] = some 2 ∧ 1 ≤ 2 - 1 ∧ [0x83#8, 0xFC][1]? = some 0xFC ∧
    top 0xFC = true := by decide

theorem test_witness_BadChecksumFrameIsDropped : idle1.buf = [] ∧ top 0x83 = true ∧ clean [0x7D] = true ∧
    2 ≤ [0x83#8, 0x7D].length ∧ frameLength [0x83, 0x7D] = some [0x83#8, 0x7D].length ∧
    isChecksumOK [0x83, 0x7D] = false := by decide

/-- For GoodFrameIsFed and DeliverReachesEachObserverOnce: the shortest frame, the longest, and class `11` of length 2. -/
theorem test_witness_GoodFrameIsFed : idle1.buf = [] ∧ WFF [0x83, 0x7C] = true ∧ WFF frame128 = true ∧
    WFF [0xFD, 0x02] = true := by decide +kernel

theorem test_witness_GoodFrameIsNeverLost : WFF [0x83, 0x7C] = true ∧ 254 ≤ (List.replicate 254 (0#8)).length ∧
    1 ∈ idle1.observers := by decide +kernel

theorem test_witness_ClockNeverDecides :
    ({ idle1 with lastStamp := some 3, trace := [.deliver 1 { bytes := [0x83], stamp := 3, delta := 0 }] } : State).untimed =
      ({ idle1 with lastStamp := some 8, trace := [.deliver 1 { bytes := [0x83], stamp := 8, delta := 2 }] } : State).untimed := by
  decide +kernel

theorem test_witness_IdempotentOperations : RestForm State.reset.buf ∧ RestForm invState.buf ∧
    State.reset.deadline = none := by
  refine ⟨.inl rfl, .inr ⟨0xBB, [0x7F], rfl, by decide, ?_⟩, rfl⟩
  rintro L ⟨⟩
  decide

/-- For WireRowIsReceiveOfItsBytes and ReceiveFrame. -/
theorem test_witness_WireRowIsReceiveOfItsBytes : encode (.fv 5 0x03 [0x19]) = some [0xE5, 0x03, 0x19] := by decide

theorem test_witness_WireRowsOnEmptyBuffer : idle1.buf = [] ∧ clean [0x7F] = true ∧ clean [0x00, 0x7F, 0x00] = true ∧
    clean [0x7F, 0x00, 0x7F, 0x00, 0x7F] = true ∧
    clean [0x02] = true ∧ ([] : List Byte).length + 2 = lenOfByte 0x02 ∧
    clean (0x00 :: List.replicate 126 0x7F) = true ∧ (List.replicate 126 (0x7F#8)).length + 2 = lenOfByte 0x00 := by
  decide +kernel

theorem test_witness_ConcreteFramesFeedTheirMessages : idle1.buf = [] ∧
    ∃ m : List Byte → Message,
      ∀ bs, m bs = { bytes := bs, stamp := idle1.clock, delta := deltaFrom idle1.lastStamp idle1.clock } :=
  ⟨rfl, _, fun _ => rfl⟩

/-- For FactoriesTransmitTheirFrames, IdleIsLeftByEnqueueOnly and SendOperationsFrame. -/
theorem test_witness_FactoriesTransmitTheirFrames : idle1.inFlight = none ∧ idle1.queue = [] ∧
    (∀ m, Instr.timerExpiry ≠ .enqueue m) := by simp [idle1, State.reset]

theorem test_witness_StartNextTakesQueueHead :
    ({ State.reset with queue := [msg [0x82], msg [0x83]] } : State).inFlight = none ∧
    ({ State.reset with queue := [msg [0x82], msg [0x83]] } : State).queue = msg [0x82] :: [msg [0x83]] ∧
    invState.st ≠ .idle ∧ State.reset.queue = [] := by decide

theorem test_witness_EnqueueResult : invState.inFlight = some { cur := msg [0x83], retry := 10, wait := .sending } ∧
    State.reset.inFlight = none ∧ State.reset.queue = [] ∧
    ({ State.reset with queue := [msg [0x82]] } : State).inFlight = none ∧
    ({ State.reset with queue := [msg [0x82]] } : State).queue = msg [0x82] :: [] := by decide

theorem test_witness_CompleteEndsSend : (busy imm 10 .sending []).queue = [] ∧
    invState.queue = msg [0x82] :: [] := by decide

/-- Budgets 1 (the last one that retransmits) and 0 (the first one that does not), with and without an entry waiting. -/
theorem test_witness_TimerExpiryResult : State.reset.deadline = none ∧
    invState.deadline = some (3 / 833) ∧ invState.inFlight = some { cur := msg [0x83], retry := 10, wait := .sending } ∧
    (busy imm 1 .sending []).inFlight = some { cur := imm, retry := 1, wait := .sending } ∧ (1 : Int) ≤ 1 ∧
    (busy imm 0 .sending []).deadline = some (33 / 1666) ∧
    (busy imm 0 .sending []).inFlight = some { cur := imm, retry := 0, wait := .sending } ∧ (0 : Int) ≤ 0 ∧
    (busy imm 0 .sending []).queue = [] ∧ (busy imm 0 .sending [sw]).queue = sw :: [] := by decide +kernel

theorem test_witness_RetryBound : invState.inFlight = some { cur := msg [0x83], retry := 10, wait := .sending } ∧
    invState.deadline = some (3 / 833) ∧ invState.queue = msg [0x82] :: [] ∧
    (busy imm 10 .awaitingDigitalPacketAck []).queue = [] ∧ 1 ≤ 1 ∧ 10 ≤ 10 := by decide +kernel

theorem test_witness_EchoCompletesOrdinarySend :
    let s := busy (msg [0x83]) 10 .sending [msg [0x82]]
    let fl : InFlight := { cur := msg [0x83], retry := 10, wait := .sending }
    s.buf = [] ∧ WFF [0x83, 0x7C] = true ∧ s.inFlight = some fl ∧ [0x83#8, 0x7C].dropLast = fl.cur.bytes ∧
      cmdClass K1 fl.cur.bytes = .ordinary := by decide

/-- Both kinds of special command, one of them in its awaiting state already. -/
theorem test_witness_EchoOfSpecialCommandAwaitsReply :
    (busy imm 10 .sending []).buf = [] ∧ WFF frameImm = true ∧ frameImm.dropLast = imm.bytes ∧
    cmdClass K1 imm.bytes = .imm ∧ WFF frameSw = true ∧ frameSw.dropLast = sw.bytes ∧
    cmdClass K1 sw.bytes = .switchAck ∧
    (busy imm 10 .sending []).inFlight = some { cur := imm, retry := 10, wait := .sending } ∧
    (busy sw 3 .awaitingSwitchAck []).inFlight = some { cur := sw, retry := 3, wait := .awaitingSwitchAck } := by decide

theorem test_witness_AcceptedReplyCompletesSend :
    (busy imm 10 .awaitingDigitalPacketAck []).buf = [] ∧ WFF immAcc = true ∧ immAcc.dropLast ≠ imm.bytes ∧
    (busy imm 10 .awaitingDigitalPacketAck []).inFlight =
      some { cur := imm, retry := 10, wait := .awaitingDigitalPacketAck } ∧
    K1.isImmAccepted immAcc.dropLast = true ∧
    (busy sw 10 .awaitingSwitchAck []).buf = [] ∧ WFF swAcc = true ∧ swAcc.dropLast ≠ sw.bytes ∧
    (busy sw 10 .awaitingSwitchAck []).inFlight = some { cur := sw, retry := 10, wait := .awaitingSwitchAck } ∧
    K1.isSwitchAccepted swAcc.dropLast = true := by decide

/-- For BusyReplyRefillsAndRetransmits and BusyRepliesAreUnbounded (there with `n` = 1). -/
theorem test_witness_BusyReplyRefillsAndRetransmits :
    (busy imm 6 .awaitingDigitalPacketAck []).buf = [] ∧ WFF immFull = true ∧ immFull.dropLast ≠ imm.bytes ∧
    (busy imm 6 .awaitingDigitalPacketAck []).inFlight =
      some { cur := imm, retry := 6, wait := .awaitingDigitalPacketAck } ∧
    K1.isImmAccepted immFull.dropLast = false ∧ K1.isImmBufferFull immFull.dropLast = true ∧
    (busy sw 6 .awaitingSwitchAck []).buf = [] ∧ WFF swRej = true ∧ swRej.dropLast ≠ sw.bytes ∧
    (busy sw 6 .awaitingSwitchAck []).inFlight = some { cur := sw, retry := 6, wait := .awaitingSwitchAck } ∧
    K1.isSwitchAccepted swRej.dropLast = false ∧ K1.isSwitchRejected swRej.dropLast = true ∧ 1 ≤ 1 := by decide

/-- Nothing in flight; `sending`; each awaiting state with a reply of the other kind. -/
theorem test_witness_OtherMessagesAreIgnored :
    idle1.buf = [] ∧ WFF immAcc = true ∧ WFF swAcc = true ∧ idle1.inFlight = none ∧
    immAcc.dropLast ≠ imm.bytes ∧ (busy imm 10 .sending []).inFlight = some { cur := imm, retry := 10, wait := .sending } ∧
    swAcc.dropLast ≠ imm.bytes ∧ K1.isImmAccepted swAcc.dropLast = false ∧
    K1.isImmBufferFull swAcc.dropLast = false ∧
    (busy imm 10 .awaitingDigitalPacketAck []).inFlight =
      some { cur := imm, retry := 10, wait := .awaitingDigitalPacketAck } ∧
    immAcc.dropLast ≠ sw.bytes ∧ K1.isSwitchAccepted immAcc.dropLast = false ∧
    K1.isSwitchRejected immAcc.dropLast = false ∧
    (busy sw 10 .awaitingSwitchAck []).inFlight = some { cur := sw, retry := 10, wait := .awaitingSwitchAck } := by decide

/-- SGL's own scenario with K1 (programs P3, P3b). -/
theorem test_witness_ScenarioSendEchoFullAccepted :
    idle1.buf = [] ∧ idle1.inFlight = none ∧ idle1.queue = [] ∧ cmdClass K1 imm.bytes = .imm ∧ WF imm.bytes = true ∧
    WFF immFull = true ∧ WFF immAcc = true ∧ immFull.dropLast ≠ imm.bytes ∧ K1.isImmAccepted immFull.dropLast = false ∧
    K1.isImmBufferFull immFull.dropLast = true ∧ immAcc.dropLast ≠ imm.bytes ∧
    K1.isImmAccepted immAcc.dropLast = true ∧ frameImm = appendChecksum imm.bytes := by decide

/-- P9. -/
theorem test_witness_IllFormedSendIsNeverConfirmed :
    (busy (msg [0x83, 0x80]) 10 .sending []).inFlight =
      some { cur := msg [0x83, 0x80], retry := 10, wait := .sending } ∧ WF [0x83, 0x80] = false ∧
    WF [] = false := by decide

theorem test_witness_RegistrationResult : RisingIds ([] : List ObserverId) ∧ RisingIds [1, 2] := by decide

theorem test_witness_EveryDeliveryOrderIsPossible : [2, 1, 3].Perm [1, 2, 3] := by decide

end Sys2Proof.Tests
end

/-! # Proofs of the family 10_state: reset, the invariants, the queue -/

section
/-! SUPPORT. The fields of the operations that Laws/State.lean does not cover, and what an invariant of the step has to
be kept by. -/

namespace Sys2Proof.Machine

@[simp] theorem cancel_queue (s : State) : (cancel s).queue = s.queue := by rw [cancel_eq]
@[simp] theorem cancel_inFlight (s : State) : (cancel s).inFlight = s.inFlight := by rw [cancel_eq]
@[simp] theorem cancel_deadline (s : State) : (cancel s).deadline = none := by rw [cancel_eq]

@[simp] theorem armAndTransmit_queue (m : Message) (s : State) : (armAndTransmit m s).queue = s.queue := rfl
@[simp] theorem armAndTransmit_inFlight (m : Message) (s : State) : (armAndTransmit m s).inFlight = s.inFlight := rfl
@[simp] theorem armAndTransmit_deadline (m : Message) (s : State) :
    (armAndTransmit m s).deadline = some (longTimeout m) := rfl

/-- An expiry retransmits with one retry less, or abandons the entry when none is left (R158). -/
theorem expire_cases (f : InFlight) (s : State) :
    f.retry ≤ 0 ∧ expire f s = startNext { s with inFlight := none } ∨
    1 ≤ f.retry ∧ expire f s = armAndTransmit f.cur { s with inFlight := some { f with retry := f.retry - 1 } } := by
  unfold expire
  split
  · exact .inl ⟨by omega, rfl⟩
  · exact .inr ⟨by omega, rfl⟩

/-- `timerExpiry()` does nothing, only forgets the deadline, or lets the entry in flight expire (R158). -/
theorem exec_timerExpiry_cases (s : State) :
    exec .timerExpiry s = .next s ∨
    s.inFlight = none ∧ exec .timerExpiry s = .next { s with deadline := none } ∨
    ∃ f, s.inFlight = some f ∧ exec .timerExpiry s = .next (expire f { s with deadline := none }) := by
  rw [show exec .timerExpiry s = execTimerExpiry s from rfl]
  unfold execTimerExpiry
  cases s.deadline with
  | none => exact .inl rfl
  | some d =>
    cases s.inFlight with
    | none => exact .inr (.inl ⟨rfl, rfl⟩)
    | some f => exact .inr (.inr ⟨f, rfl, rfl⟩)

/-- What every pass of a `receive` keeps, the `receive` keeps. -/
theorem receiveWith_keeps {K : Classifier} {P : State → Prop} {now : Time}
    (buffer : ∀ s b, P s → P { s with buf := b })
    (feeds : ∀ s f, WFF f = true → P s → P (feed K now f s)) {s : State} (chunk : List Byte) (h : P s) :
    P (receiveWith K chunk now s) :=
  drain_keeps buffer feeds _ (buffer s _ h)

/-- `P` is kept by everything a step is made of: what the environment changes, and the effect of each entry point. -/
structure KeptByOps (P : State → Prop) : Prop where
  environment : ∀ {s} now later, P s → P { s with clock := now, inputs := later }
  receive : ∀ {s} chunk now, P s → P (receiveWith Config.K chunk now s)
  enqueue : ∀ {s} m, P s → P (startNext { s with queue := s.queue ++ [m] })
  disarm : ∀ {s}, s.inFlight = none → P s → P { s with deadline := none }
  expire : ∀ {s f}, s.inFlight = some f → P s → P (expire f { s with deadline := none })
  detach : ∀ {s}, P s → P (cancel { s with queue := [], inFlight := none })
  addObserver : ∀ {s} o, P s → P { s with observers := addId o s.observers }
  removeObserver : ∀ {s} o, P s → P { s with observers := removeId o s.observers }
  reset : ∀ {s}, P s →
    P (cancel { s with buf := [], lastStamp := none, queue := [], inFlight := none, observers := [] })

/-- Every instruction keeps what its operations keep. -/
theorem KeptByOps.exec {P : State → Prop} (k : KeptByOps P) {i : Instr} {s t : State}
    (h : Machine.exec i s = .next t) (hs : P s) : P t := by
  rcases exec_cases i s with ⟨w, now, he, -⟩ | ⟨m, rfl⟩ | rfl | rfl | ⟨o, rfl⟩ | ⟨o, rfl⟩ | rfl
  · rw [he] at h
    cases h
    exact k.receive w now hs
  · cases h
    exact k.enqueue m hs
  · rcases exec_timerExpiry_cases s with he | ⟨hf, he⟩ | ⟨f, hf, he⟩ <;> rw [he] at h <;> cases h
    · exact hs
    · exact k.disarm hf hs
    · exact k.expire hf hs
  · cases h
    exact k.detach hs
  · cases h
    exact k.addObserver o hs
  · cases h
    exact k.removeObserver o hs
  · cases h
    exact k.reset hs

/-- Every step keeps what the operations keep. -/
theorem KeptByOps.step {P : State → Prop} (k : KeptByOps P) {s t : State}
    (h : Machine.step s = .next t) (hs : P s) : P t := by
  rcases step_exec h with rfl | ⟨i, now, later, he⟩
  · exact hs
  · exact k.exec he (k.environment now later hs)

end Sys2Proof.Machine
end

section
/-! SUPPORT. The invariants of R32 and R33 in three independent parts: the send machine's elements, the buffer, the
observers. -/

namespace Sys2Proof.Machine

/-- What R32 items 4 and 5 ask of a send in flight. -/
structure FlightOk (K : Classifier) (f : InFlight) : Prop where
  retry_range : 0 ≤ f.retry ∧ f.retry ≤ 10
  imm_class : f.wait = .awaitingDigitalPacketAck → K.isImmPacket f.cur.bytes = true
  switch_class : f.wait = .awaitingSwitchAck →
    K.isImmPacket f.cur.bytes = false ∧ K.isSwitchWithAck f.cur.bytes = true

/-- R32 on the send machine's elements: idle with nothing armed and nothing queued, or an entry in flight under an armed
positive duration. -/
inductive SendOk (K : Classifier) (s : State) : Prop
  | idle (flight : s.inFlight = none) (unarmed : s.deadline = none) (empty : s.queue = [])
  | busy (f : InFlight) (d : Duration) (flight : s.inFlight = some f) (armed : s.deadline = some d) (pos : 0 < d)
      (ok : FlightOk K f)

/-- The invariants are the send machine's, the rest form of the buffer and the canonical form of the observers. -/
theorem inv_iff {K : Classifier} {s : State} :
    Inv K s ↔ SendOk K s ∧ RestForm s.buf ∧ RisingIds s.observers := by
  constructor
  · intro h
    refine ⟨?_, h.rest, h.rising⟩
    have hdead := h.idle_iff_deadline
    rw [st_eq_idle_iff] at hdead
    cases hf : s.inFlight with
    | none => exact .idle hf (hdead.mp hf) (h.idle_queue ((st_eq_idle_iff s).mpr hf))
    | some f =>
      obtain ⟨d, hd⟩ := Option.ne_none_iff_exists'.mp (mt hdead.mpr (by simp [hf]))
      exact .busy f d hf hd (h.armed_pos d hd) ⟨h.retry_range f hf, h.imm_class f hf, h.switch_class f hf⟩
  · rintro ⟨hs, hrest, hrising⟩
    have hcur : s.st = .idle ↔ s.cur = none := (st_eq_idle_iff s).trans (cur_eq_none_iff s).symm
    cases hs with
    | idle hf hd hq =>
      exact ⟨hcur, by simp [st_eq_idle_iff, hf, hd], fun _ => hq, by simp [hf], by simp [hf], by simp [hf], hrest,
        hrising, by simp [hd]⟩
    | busy f d hf hd hpos ok =>
      exact ⟨hcur, by simp [st_eq_idle_iff, hf, hd], by simp [st_eq_idle_iff, hf],
        by simpa [hf] using ok.retry_range, by simpa [hf] using ok.imm_class, by simpa [hf] using ok.switch_class,
        hrest, hrising, by simpa [hd] using hpos⟩

theorem timeout_pos {n : Nat} (h : 0 < n) : 0 < timeout n := by
  have hn : (0 : Rat) < n := by exact_mod_cast h
  unfold timeout bitsPerByteOnWire busRate safetyFactor
  positivity

theorem longTimeout_pos (m : Message) : 0 < longTimeout m := timeout_pos (Nat.succ_pos _)

theorem shortTimeout_pos : 0 < shortTimeout := timeout_pos (by decide)

theorem isImmPacket_of_cmdClass {K : Classifier} {bs : List Byte} (h : cmdClass K bs = .imm) :
    K.isImmPacket bs = true := by
  unfold cmdClass at h
  split at h
  · assumption
  · split at h <;> cases h

theorem isSwitchWithAck_of_cmdClass {K : Classifier} {bs : List Byte} (h : cmdClass K bs = .switchAck) :
    K.isImmPacket bs = false ∧ K.isSwitchWithAck bs = true := by
  unfold cmdClass at h
  split at h
  · cases h
  · rename_i himm
    split at h
    · exact ⟨Bool.eq_false_of_not_eq_true himm, ‹_›⟩
    · cases h

/-- A budget within range may replace the budget of a good send. -/
theorem FlightOk.withRetry {K : Classifier} {f : InFlight} (h : FlightOk K f) {r : Int} (hr : 0 ≤ r ∧ r ≤ 10) :
    FlightOk K { f with retry := r } :=
  ⟨hr, h.imm_class, h.switch_class⟩

section
variable {K : Classifier} {s : State}

/-- R32 reads the queue, the in-flight record and the deadline only. -/
theorem SendOk.congr {t : State} (h : SendOk K s) (hq : t.queue = s.queue) (hf : t.inFlight = s.inFlight)
    (hd : t.deadline = s.deadline) : SendOk K t := by
  cases h with
  | idle flight unarmed empty => exact .idle (hf.trans flight) (hd.trans unarmed) (hq.trans empty)
  | busy f d flight armed pos ok => exact .busy f d (hf.trans flight) (hd.trans armed) pos ok

theorem SendOk.flightOk (h : SendOk K s) {f : InFlight} (hf : s.inFlight = some f) : FlightOk K f := by
  cases h with
  | idle flight => simp [flight] at hf
  | busy g d flight _ _ ok =>
    rw [flight] at hf
    cases hf
    exact ok

theorem sendOk_arm {f : InFlight} {d : Duration} (hf : s.inFlight = some f) (ok : FlightOk K f) (hd : 0 < d) :
    SendOk K (arm d s) :=
  .busy f d hf rfl hd ok

theorem sendOk_armAndTransmit {f : InFlight} (m : Message) (hf : s.inFlight = some f) (ok : FlightOk K f) :
    SendOk K (armAndTransmit m s) :=
  .busy f _ hf rfl (longTimeout_pos m) ok

/-- `StartNext` establishes R32 where nothing is in flight and nothing armed. -/
theorem sendOk_startNext (hf : s.inFlight = none) (hd : s.deadline = none) : SendOk K (startNext s) := by
  rcases startNext_cases s with ⟨he, hq⟩ | ⟨m, rest, -, -, he⟩ <;> rw [he]
  · exact .idle hf hd (hq hf)
  · exact sendOk_armAndTransmit m rfl ⟨by simp [retryInit], nofun, nofun⟩

/-- `Complete` establishes R32 from any state. -/
theorem sendOk_complete (s : State) : SendOk K (complete s) :=
  sendOk_startNext (by simp) (by simp)

theorem SendOk.ackMatch (h : SendOk K s) (m : Message) : SendOk K (ackMatch K m s) := by
  rcases ackMatch_cases K m s with he | ⟨f, hf, he | ⟨-, hc, he⟩ | ⟨-, hc, he⟩ | ⟨-, he⟩⟩ <;> rw [he]
  · exact h
  · exact sendOk_complete s
  · have ok := h.flightOk hf
    exact sendOk_arm rfl ⟨ok.retry_range, fun _ => isImmPacket_of_cmdClass hc, nofun⟩ shortTimeout_pos
  · have ok := h.flightOk hf
    exact sendOk_arm rfl ⟨ok.retry_range, nofun, fun _ => isSwitchWithAck_of_cmdClass hc⟩ shortTimeout_pos
  · exact sendOk_armAndTransmit f.cur rfl ((h.flightOk hf).withRetry (by decide))

theorem SendOk.feed (h : SendOk K s) (now : Time) (frame : List Byte) : SendOk K (feed K now frame s) :=
  have hs : SendOk K { s with lastStamp := some now } := h.congr rfl rfl rfl
  (hs.ackMatch _).congr rfl rfl rfl

theorem SendOk.expire (h : SendOk K s) {f : InFlight} (hf : s.inFlight = some f) :
    SendOk K (expire f { s with deadline := none }) := by
  have ok := h.flightOk hf
  rcases expire_cases f { s with deadline := none } with ⟨-, he⟩ | ⟨hr, he⟩ <;> rw [he]
  · exact sendOk_startNext rfl rfl
  · have hle := ok.retry_range.2
    exact sendOk_armAndTransmit f.cur rfl (ok.withRetry ⟨by omega, by omega⟩)

theorem SendOk.enqueue (h : SendOk K s) (m : Message) : SendOk K (startNext { s with queue := s.queue ++ [m] }) := by
  cases h with
  | idle flight unarmed empty => exact sendOk_startNext flight unarmed
  | busy f d flight armed pos ok =>
    rw [startNext_busy (s := { s with queue := s.queue ++ [m] }) flight]
    exact .busy f d flight armed pos ok

/-- A send machine emptied and cancelled is idle as R32 asks. -/
theorem sendOk_cancel (hf : s.inFlight = none) (hq : s.queue = []) : SendOk K (cancel s) :=
  .idle (by simp [hf]) (by simp) (by simp [hq])

end

/-- R32 is kept by everything a step is made of. -/
theorem sendOk_kept : KeptByOps (SendOk Config.K) where
  environment _ _ h := h.congr rfl rfl rfl
  receive chunk now h := receiveWith_keeps (fun _ _ h => h.congr rfl rfl rfl) (fun _ f _ h => h.feed now f) chunk h
  enqueue m h := h.enqueue m
  disarm hf h := by
    cases h with
    | idle flight _ empty => exact .idle flight rfl empty
    | busy f _ flight => simp [flight] at hf
  expire hf h := h.expire hf
  detach _ := sendOk_cancel rfl rfl
  addObserver _ h := h.congr rfl rfl rfl
  removeObserver _ h := h.congr rfl rfl rfl
  reset _ := sendOk_cancel rfl rfl

/-- R33 is kept by everything a step is made of: only `receive` and `reset()` touch the buffer. -/
theorem restForm_kept : KeptByOps fun s => RestForm s.buf where
  environment _ _ h := h
  receive chunk now _ := judge_await_iff.mp (drain_judge Config.K now _)
  enqueue m h := by rwa [(startNext_frame _).buf]
  disarm _ h := h
  expire _ h := by rwa [(expire_frame _ _).buf]
  detach h := by rwa [(cancel_frame _).buf]
  addObserver _ h := h
  removeObserver _ h := h
  reset _ := by
    rw [(cancel_frame _).buf]
    exact .inl rfl

/-- The canonical form of the observers is kept by everything a step is made of (log 9). -/
theorem risingIds_kept : KeptByOps fun s => RisingIds s.observers where
  environment _ _ h := h
  receive chunk now h := receiveWith_keeps (P := fun s => RisingIds s.observers) (fun _ _ h => h)
    (fun s f _ h => by rwa [(feed_frame Config.K now f s).1]) chunk h
  enqueue m h := by rwa [(startNext_frame _).observers]
  disarm _ h := h
  expire _ h := by rwa [(expire_frame _ _).observers]
  detach h := by rwa [(cancel_frame _).observers]
  addObserver _ h := addId_rising h
  removeObserver _ h := removeId_rising h
  reset _ := by
    rw [(cancel_frame _).observers]
    exact .nil

/-- Settles O19: each of the three parts of the invariants is kept by every operation. -/
theorem stepKeepsInvariant : Obligations.StepKeepsInvariant := by
  intro s t hs h
  obtain ⟨hsend, hrest, hrising⟩ := inv_iff.mp hs
  exact inv_iff.mpr ⟨sendOk_kept.step h hsend, restForm_kept.step h hrest, risingIds_kept.step h hrising⟩

/-- Settles O18: the reset state is idle, with an empty buffer and no observer. -/
theorem resetSatisfiesInvariant : Obligations.ResetSatisfiesInvariant :=
  fun _ => inv_iff.mpr ⟨.idle rfl rfl rfl, .inl rfl, .nil⟩

/-- Settles O16: R35, read off `State.reset`. -/
theorem resetStateElements : Obligations.ResetStateElements := by
  unfold Obligations.ResetStateElements
  simp [State.reset, State.st, State.cur, State.retry]

end Sys2Proof.Machine
end

section
/-! SUPPORT. The timer collaborator as the trace leaves it, against the element `deadline` (R34 (a), R209). -/

namespace Sys2Proof.Machine

@[simp] theorem running_arm (tr : List OutEvent) (d : Duration) : running (tr ++ [.arm d]) = some d := by
  simp [running]

@[simp] theorem running_transmit (tr : List OutEvent) (f : List Byte) :
    running (tr ++ [.transmit f]) = running tr := by
  simp [running]

/-- Deliveries do not touch the timer. -/
@[simp] theorem running_deliveries (tr : List OutEvent) (m : Message) (os : List ObserverId) :
    running (tr ++ os.map fun o => .deliver o m) = running tr := by
  simp [running, List.foldl_map]

/-- An armed deadline is the timer that the outputs so far leave running. -/
def Mirrors (s : State) : Prop := ∀ d, s.deadline = some d → running s.trace = some d

theorem mirrors_of_unarmed {s : State} (h : s.deadline = none) : Mirrors s := by simp [Mirrors, h]

theorem mirrors_arm (d : Duration) (s : State) : Mirrors (arm d s) := by simp [Mirrors]

theorem Mirrors.transmit {s : State} (h : Mirrors s) (m : Message) : Mirrors (transmit m s) := by
  simpa [Mirrors, Machine.transmit] using h

theorem mirrors_armAndTransmit (m : Message) (s : State) : Mirrors (armAndTransmit m s) :=
  (mirrors_arm _ _).transmit m

theorem Mirrors.startNext {s : State} (h : Mirrors s) : Mirrors (startNext s) := by
  rcases startNext_cases s with ⟨he, -⟩ | ⟨m, rest, -, -, he⟩ <;> rw [he]
  · exact h
  · exact mirrors_armAndTransmit m _

theorem mirrors_cancel (s : State) : Mirrors (cancel s) := mirrors_of_unarmed (cancel_deadline s)

theorem Mirrors.ackMatch {s : State} (h : Mirrors s) (K : Classifier) (m : Message) : Mirrors (ackMatch K m s) := by
  rcases ackMatch_cases K m s with he | ⟨f, -, he | ⟨-, -, he⟩ | ⟨-, -, he⟩ | ⟨-, he⟩⟩ <;> rw [he]
  · exact h
  · exact (mirrors_cancel _).startNext
  · exact mirrors_arm _ _
  · exact mirrors_arm _ _
  · exact mirrors_armAndTransmit _ _

theorem Mirrors.deliver {s : State} (h : Mirrors s) (m : Message) : Mirrors (deliver m s) := by
  simpa [Mirrors] using h

theorem Mirrors.feed {s : State} (h : Mirrors s) (K : Classifier) (now : Time) (frame : List Byte) :
    Mirrors (feed K now frame s) :=
  have hs : Mirrors { s with lastStamp := some now } := h
  (hs.ackMatch K _).deliver _

/-- An expiry finds the timer fired, so whatever is armed after it was armed by it. -/
theorem mirrors_expire (f : InFlight) (s : State) : Mirrors (expire f { s with deadline := none }) := by
  rcases expire_cases f { s with deadline := none } with ⟨-, he⟩ | ⟨-, he⟩ <;> rw [he]
  · exact (mirrors_of_unarmed rfl).startNext
  · exact mirrors_armAndTransmit _ _

theorem mirrors_kept : KeptByOps Mirrors where
  environment _ _ h := h
  receive chunk now h := receiveWith_keeps (fun _ _ h => h) (fun _ f _ h => h.feed Config.K now f) chunk h
  enqueue _ h := Mirrors.startNext h
  disarm _ _ := mirrors_of_unarmed rfl
  expire _ _ := mirrors_expire _ _
  detach _ := mirrors_cancel _
  addObserver _ h := h
  removeObserver _ h := h
  reset _ := mirrors_cancel _

/-- Settles O23: every operation arms with an `arm`, cancels with a `cancel`, or has seen the timer fire. -/
theorem stepKeepsDeadlineMirrorsTimer : Obligations.StepKeepsDeadlineMirrorsTimer :=
  fun _ _ hs h => mirrors_kept.step h hs

end Sys2Proof.Machine
end

section
/-! SUPPORT. The length of well-formed frames and Messages (R36). -/

namespace Sys2Proof.Machine

/-- A well-formed frame has 2 to 128 bytes: a class-`11` length byte has its top bit clear. -/
theorem WFF_length {f : List Byte} (h : WFF f = true) : 2 ≤ f.length ∧ f.length ≤ 128 := by
  obtain ⟨b, body, rfl, hpos, -, hclean, hlen, -⟩ := WFF_iff.mp h
  refine ⟨by simp only [List.length_cons]; omega, ?_⟩
  rcases frameLength_cases hlen with h2 | h4 | h6 | ⟨len, tl, rfl, hL⟩
  · omega
  · omega
  · omega
  · rw [hL]
    exact lenOfByte_le_of_clean (clean_iff.mp hclean len List.mem_cons_self)

/-- Settles O24: a well-formed Message is a well-formed frame of 2 to 128 bytes without its checksum. -/
theorem wellFormedMessageLength : Obligations.WellFormedMessageLength := by
  intro bs h
  have hf : 2 ≤ (appendChecksum bs).length ∧ (appendChecksum bs).length ≤ 128 := WFF_length h
  simp only [appendChecksum, List.length_append, List.length_singleton] at hf
  omega

end Sys2Proof.Machine
end

section
/-! SUPPORT. What the operations take off the queue, and that they transmit it (R25, R155). -/

namespace Sys2Proof.Machine

/-- From `s` to `t` entries have been taken off the head of the queue, and each was transmitted, in that order. -/
def Serves (s t : State) : Prop :=
  ∃ new taken, t.trace = s.trace ++ new ∧ s.queue = taken ++ t.queue ∧
    (taken.map fun m => OutEvent.transmit (appendChecksum m.bytes)).Sublist new

/-- An operation that leaves the queue alone and only appends to the trace takes nothing. -/
theorem serves_of_queue_eq {s t : State} (hq : t.queue = s.queue) (ht : s.trace <+: t.trace) : Serves s t := by
  obtain ⟨new, hnew⟩ := ht
  exact ⟨new, [], hnew.symm, by simp [hq], by simp⟩

theorem Serves.trans {s t u : State} (h : Serves s t) (k : Serves t u) : Serves s u := by
  obtain ⟨new, taken, htr, hq, hsub⟩ := h
  obtain ⟨new', taken', htr', hq', hsub'⟩ := k
  refine ⟨new ++ new', taken ++ taken', by simp [htr', htr], by simp [hq, hq'], ?_⟩
  rw [List.map_append]
  exact hsub.append hsub'

theorem serves_refl (s : State) : Serves s s := serves_of_queue_eq rfl List.prefix_rfl

theorem serves_startNext (s : State) : Serves s (startNext s) := by
  rcases startNext_cases s with ⟨he, -⟩ | ⟨m, rest, -, hq, he⟩ <;> rw [he]
  · exact serves_refl s
  · rw [armAndTransmit_eq]
    exact ⟨[.arm (longTimeout m), .transmit (appendChecksum m.bytes)], [m], rfl, hq, by simp⟩

theorem serves_complete (s : State) : Serves s (complete s) :=
  have hcancel : Serves s (cancel { s with inFlight := none }) :=
    serves_of_queue_eq (by simp) (cancel_frame { s with inFlight := none }).trace
  hcancel.trans (serves_startNext _)

theorem serves_ackMatch (K : Classifier) (m : Message) (s : State) : Serves s (ackMatch K m s) := by
  have htrace := (ackMatch_frame K m s).trace
  rcases ackMatch_cases K m s with he | ⟨f, -, he | ⟨-, -, he⟩ | ⟨-, -, he⟩ | ⟨-, he⟩⟩ <;> rw [he] at htrace ⊢
  · exact serves_refl s
  · exact serves_complete s
  · exact serves_of_queue_eq rfl htrace
  · exact serves_of_queue_eq rfl htrace
  · exact serves_of_queue_eq rfl htrace

theorem serves_feed (K : Classifier) (now : Time) (frame : List Byte) (s : State) : Serves s (feed K now frame s) :=
  have hmatch : Serves s (ackMatch K (decodedMessage frame s.lastStamp now) { s with lastStamp := some now }) :=
    serves_ackMatch K _ { s with lastStamp := some now }
  hmatch.trans (serves_of_queue_eq rfl (List.prefix_append _ _))

theorem serves_receiveWith (K : Classifier) (chunk : List Byte) (now : Time) (s : State) :
    Serves s (receiveWith K chunk now s) :=
  receiveWith_keeps (P := Serves s) (fun _ _ h => h) (fun u f _ h => h.trans (serves_feed K now f u)) chunk
    (serves_refl s)

theorem serves_expire (f : InFlight) (s : State) : Serves s (expire f s) := by
  have htrace := (expire_frame f s).trace
  rcases expire_cases f s with ⟨-, he⟩ | ⟨-, he⟩ <;> rw [he] at htrace ⊢
  · exact serves_startNext { s with inFlight := none }
  · exact serves_of_queue_eq rfl htrace

/-- `timerExpiry()` takes entries off the queue only to send them. -/
theorem exec_timerExpiry_serves (s : State) : ∃ t, exec .timerExpiry s = .next t ∧ Serves s t := by
  rcases exec_timerExpiry_cases s with he | ⟨-, he⟩ | ⟨f, -, he⟩
  · exact ⟨_, he, serves_refl s⟩
  · exact ⟨_, he, serves_refl s⟩
  · exact ⟨_, he, serves_expire f { s with deadline := none }⟩

/-- Every instruction but `detach` and `reset` serves the queue as it stands, with the Message enqueued at its tail. -/
theorem exec_serves (i : Instr) (s : State) (hd : i ≠ .detach) (hr : i ≠ .reset) :
    ∃ t waiting, exec i s = .next t ∧ Serves { s with queue := waiting } t ∧
      (waiting = s.queue ∧ (∀ m, i ≠ .enqueue m) ∨ ∃ m, i = .enqueue m ∧ waiting = s.queue ++ [m]) := by
  rcases exec_cases i s with ⟨w, now, he, hm, -⟩ | ⟨m, rfl⟩ | rfl | rfl | ⟨o, rfl⟩ | ⟨o, rfl⟩ | rfl
  · exact ⟨_, s.queue, he, serves_receiveWith _ w now s, .inl ⟨rfl, hm⟩⟩
  · exact ⟨_, s.queue ++ [m], rfl, serves_startNext { s with queue := s.queue ++ [m] }, .inr ⟨m, rfl, rfl⟩⟩
  · obtain ⟨t, he, ht⟩ := exec_timerExpiry_serves s
    exact ⟨t, s.queue, he, ht, .inl ⟨rfl, nofun⟩⟩
  · exact absurd rfl hd
  · exact ⟨_, s.queue, rfl, serves_refl s, .inl ⟨rfl, nofun⟩⟩
  · exact ⟨_, s.queue, rfl, serves_refl s, .inl ⟨rfl, nofun⟩⟩
  · exact absurd rfl hr

/-- `detach` and `reset` empty the queue, and only append to the trace. -/
theorem exec_empties_queue {i : Instr} (h : i = .detach ∨ i = .reset) (s : State) :
    ∃ t, exec i s = .next t ∧ t.queue = [] ∧ s.trace <+: t.trace := by
  rcases h with rfl | rfl
  · exact ⟨_, rfl, by simp, (cancel_frame { s with queue := [], inFlight := none }).trace⟩
  · exact ⟨_, rfl, by simp, (cancel_frame
      { s with buf := [], lastStamp := none, queue := [], inFlight := none, observers := [] }).trace⟩

/-- Settles O55: every instruction but the two that empty the queue serves it from the head. -/
theorem queueIsFifo : Obligations.QueueIsFifo := by
  intro i s
  by_cases h : i = .detach ∨ i = .reset
  · obtain ⟨t, he, hq, new, hnew⟩ := exec_empties_queue h s
    exact ⟨t, new, he, hnew.symm, fun _ => hq, fun hd hr => absurd h (by simp [hd, hr])⟩
  · obtain ⟨hd, hr⟩ := not_or.mp h
    obtain ⟨t, waiting, he, ⟨new, taken, hnew, hq, hsub⟩, hwaiting⟩ := exec_serves i s hd hr
    exact ⟨t, new, he, hnew, fun h' => absurd h' h, fun _ _ => ⟨waiting, taken, hwaiting, hq, hsub⟩⟩

end Sys2Proof.Machine
end

/-! # Proofs of the family 20_memory: operations that leave the state alone when applied again or to nothing (R57) -/

section
/-! SUPPORT. When an operation changes nothing (R57). -/

namespace Sys2Proof.Machine

/-- `receive` of no bytes waits at once on a buffer in rest form (R33, R128). -/
theorem receiveWith_nil_of_restForm {K : Classifier} {now : Time} {s : State} (h : RestForm s.buf) :
    receiveWith K [] now s = s := by
  rw [receiveWith, List.append_nil]
  exact drain_await (judge_await_iff.mpr h)

/-- An expiry of the timer with nothing armed is ignored (R158; decision D13). -/
theorem execTimerExpiry_unarmed {s : State} (h : s.deadline = none) : execTimerExpiry s = .next s := by
  simp only [execTimerExpiry, h]

/-- `Cancel()` with nothing armed does nothing (R154). -/
theorem cancel_unarmed {s : State} (h : s.deadline = none) : cancel s = s := by
  simp only [cancel, h]

/-- `detach()` on a machine with nothing queued, in flight or armed changes nothing (R168). -/
theorem execDetach_idle {s : State} (hq : s.queue = []) (hf : s.inFlight = none) (hd : s.deadline = none) :
    execDetach s = .next s := by
  have hs : { s with queue := [], inFlight := none } = s := by rw [← hq, ← hf]
  rw [execDetach, hs, cancel_unarmed hd]

/-- Adding an identity that is there already changes nothing (decision D17). -/
theorem addId_of_mem {o : ObserverId} {os : List ObserverId} (h : o ∈ os) : addId o os = os := if_pos h

/-- An identity is among the observers once it has been added (R190). -/
theorem mem_addId_self (o : ObserverId) (os : List ObserverId) : o ∈ addId o os := by
  unfold addId
  split
  · assumption
  · exact mem_insertId.mpr (.inl rfl)

theorem addId_addId (o : ObserverId) (os : List ObserverId) : addId o (addId o os) = addId o os :=
  addId_of_mem (mem_addId_self o os)

theorem removeId_removeId (o : ObserverId) (os : List ObserverId) : removeId o (removeId o os) = removeId o os := by
  simp only [removeId, List.filter_filter, Bool.and_self]

/-- Settles O34: a `receive` of nothing waits, an unarmed expiry is ignored, and a first `detach`, `addObserver` or
`removeObserver` leaves a state in which the second has nothing to do. -/
theorem idempotentOperations : Obligations.IdempotentOperations := by
  refine ⟨fun s now hrest => ?_, fun s hd => execTimerExpiry_unarmed hd, fun s => ⟨_, rfl, ?_⟩,
    fun s o => ⟨_, rfl, ?_⟩, fun s o => ⟨_, rfl, ?_⟩⟩
  · exact congrArg Host.Outcome.next (receiveWith_nil_of_restForm hrest)
  · exact execDetach_idle (by simp) (by simp) (by simp)
  · exact congrArg (fun os => Host.Outcome.next { s with observers := os }) (addId_addId o s.observers)
  · exact congrArg (fun os => Host.Outcome.next { s with observers := os }) (removeId_removeId o s.observers)

end Sys2Proof.Machine
end

/-! # Proofs of the family 30_encoding: decoder and encoder, decoder and reassembler, the rows of the wire -/

section
/-! SUPPORT. A byte by its form (R70, R71), and the frame length of each form (R73 to R76, R122). -/

namespace Sys2Proof

open Machine

/-- A byte is a DATA byte or the opcode of one of the four classes (R70 to R72, R77). -/
theorem byte_cases (b : Byte) :
    (∃ v, b = byteData v) ∨ (∃ id, b = opByte 0b100#3 id) ∨ (∃ id, b = opByte 0b101#3 id) ∨
      (∃ id, b = opByte 0b110#3 id) ∨ ∃ id, b = opByte 0b111#3 id := by
  cases hb : top b with
  | false => exact .inl ⟨_, (byteData_extract b hb).symm⟩
  | true =>
    obtain ⟨h0, h1, h2, h3⟩ := opByte_split b hb
    rcases lengthClass_cases (lengthClass b) with h | h | h | h
    · exact .inr (.inl ⟨_, (h0 h).symm⟩)
    · exact .inr (.inr (.inl ⟨_, (h1 h).symm⟩))
    · exact .inr (.inr (.inr (.inl ⟨_, (h2 h).symm⟩)))
    · exact .inr (.inr (.inr (.inr ⟨_, (h3 h).symm⟩)))

theorem extract_byteData (v : BitVec 7) : (byteData v).extractLsb' 0 7 = v := by
  apply BitVec.eq_of_getLsbD_eq
  intro i hi
  rw [byteData, BitVec.getLsbD_extractLsb', BitVec.getLsbD_append]
  simp [hi]

/-- The length class depends on the three top bits only, which `E0` masks (R71, R72). -/
theorem lengthClass_mask (op : Byte) : lengthClass (op &&& 0xE0) = lengthClass op := by
  apply BitVec.eq_of_getLsbD_eq
  intro i hi
  rcases (by omega : i = 0 ∨ i = 1) with rfl | rfl <;> simp [lengthClass]

/-- A length byte with its top bit set denotes itself, 128 at least (decision D2). -/
theorem lenOfByte_of_top {len : Byte} (h : top len = true) : lenOfByte len = len.toNat ∧ 2 ≤ lenOfByte len := by
  have hlow : 2 ^ 7 ≤ len.toNat := Nat.ge_two_pow_of_testBit h
  have hne : len ≠ 0 := by
    rintro rfl
    cases h
  have hL : lenOfByte len = len.toNat := if_neg hne
  omega

section
variable (id : BitVec 5) (rest : List Byte)

@[simp] theorem frameLength_class00 : frameLength (opByte 0b100#3 id :: rest) = some 2 := by
  simp [frameLength_cons, lengthClass_opByte]

@[simp] theorem frameLength_class01 : frameLength (opByte 0b101#3 id :: rest) = some 4 := by
  simp [frameLength_cons, lengthClass_opByte]

@[simp] theorem frameLength_class10 : frameLength (opByte 0b110#3 id :: rest) = some 6 := by
  simp [frameLength_cons, lengthClass_opByte]

@[simp] theorem frameLength_class11 : frameLength (opByte 0b111#3 id :: rest) = rest.head?.map lenOfByte := by
  simp [frameLength_cons, lengthClass_opByte]

end

/-- Settles O4: masking with `E0` keeps the length class, so the masked opcode says which one it is. -/
theorem frameLengthByOpcodeRange : Obligations.FrameLengthByOpcodeRange := by
  intro op rest
  have hclass {m : Byte} (h : op &&& 0xE0 = m) : lengthClass op = lengthClass m := by rw [← h, lengthClass_mask]
  refine ⟨fun h => ?_, fun h => ?_, fun h => ?_, fun h => ?_⟩
  · rw [frameLength_cons, hclass h]
    rfl
  · rw [frameLength_cons, hclass h]
    rfl
  · rw [frameLength_cons, hclass h]
    rfl
  · simp only [frameLength_cons, hclass h]
    exact ⟨rfl, rfl, fun len hlen => congrArg some (if_neg hlen)⟩

end Sys2Proof
end

section
/-! SUPPORT. The decoder at each form of byte, and what it reads there (R70 to R79). -/

namespace Sys2Proof

open Machine

@[simp] theorem decode_data (v : BitVec 7) (rest : List Byte) :
    decode (byteData v :: rest) = .instr (.data v) rest := by
  simp [decode_cons, extract_byteData]

section
variable (id : BitVec 5) (rest : List Byte)

@[simp] theorem decode_class00 : decode (opByte 0b100#3 id :: rest) = decodeF2 id rest := by
  simp [decode_cons, lengthClass_opByte]

@[simp] theorem decode_class01 : decode (opByte 0b101#3 id :: rest) = decodeF4 id rest := by
  simp [decode_cons, lengthClass_opByte]

@[simp] theorem decode_class10 : decode (opByte 0b110#3 id :: rest) = decodeF6 id rest := by
  simp [decode_cons, lengthClass_opByte]

@[simp] theorem decode_class11 : decode (opByte 0b111#3 id :: rest) = decodeFV id rest := by
  simp [decode_cons, lengthClass_opByte]

end

theorem wellFormed_f2_iff {id : BitVec 5} {c : Byte} : (Instr.f2 id c).wellFormed = true ↔
    clean [c] = true ∧ ¬(id = 0x03#5 ∧ c = 0x7C#8) ∧ ¬(id = 0x02#5 ∧ c = 0x7D#8) := by
  simp only [Instr.wellFormed, Bool.and_eq_true, Bool.not_eq_true', ← Bool.not_eq_true, decide_eq_true_eq, and_assoc]

theorem wellFormed_f4_iff {id : BitVec 5} {d1 d2 c : Byte} : (Instr.f4 id d1 d2 c).wellFormed = true ↔
    clean [d1, d2, c] = true ∧ ¬(id = 0x1B#5 ∧ d1 = 0x7F#8 ∧ d2 = 0x00#8 ∧ c = 0x3B#8) := by
  simp only [Instr.wellFormed, Bool.and_eq_true, Bool.not_eq_true', ← Bool.not_eq_true, decide_eq_true_eq, and_assoc]

theorem wellFormed_fv_iff {id : BitVec 5} {len : Byte} {body : List Byte} : (Instr.fv id len body).wellFormed = true ↔
    clean (len :: body) = true ∧ body.length + 2 = lenOfByte len := by
  simp only [Instr.wellFormed, Bool.and_eq_true, decide_eq_true_eq]

/-! Each format's decoder reads the operands of a well-formed instruction, and leaves what is behind them. -/

theorem decodeF2_wellFormed {id : BitVec 5} {c : Byte} (h : (Instr.f2 id c).wellFormed = true) (rest : List Byte) :
    decodeF2 id (c :: rest) = .instr (.f2 id c) rest := by
  obtain ⟨hclean, hon, hoff⟩ := wellFormed_f2_iff.mp h
  rw [decodeF2, if_pos hclean, if_neg hon, if_neg hoff]

theorem decodeF4_wellFormed {id : BitVec 5} {d1 d2 c : Byte} (h : (Instr.f4 id d1 d2 c).wellFormed = true)
    (rest : List Byte) : decodeF4 id (d1 :: d2 :: c :: rest) = .instr (.f4 id d1 d2 c) rest := by
  obtain ⟨hclean, hop⟩ := wellFormed_f4_iff.mp h
  rw [decodeF4, if_pos hclean, if_neg hop]

theorem decodeF6_wellFormed {id : BitVec 5} {d1 d2 d3 d4 c : Byte} (h : (Instr.f6 id d1 d2 d3 d4 c).wellFormed = true)
    (rest : List Byte) : decodeF6 id (d1 :: d2 :: d3 :: d4 :: c :: rest) = .instr (.f6 id d1 d2 d3 d4 c) rest :=
  if_pos h

theorem decodeFV_wellFormed {id : BitVec 5} {len : Byte} {body : List Byte}
    (h : (Instr.fv id len body).wellFormed = true) (rest : List Byte) :
    decodeFV id (len :: (body ++ rest)) = .instr (.fv id len body) rest := by
  obtain ⟨hclean, hlen⟩ := wellFormed_fv_iff.mp h
  have hbody : lenOfByte len - 2 = body.length := by omega
  have hwhole : ¬ (body ++ rest).length + 2 < lenOfByte len := by
    rw [List.length_append]
    omega
  have htwo : ¬ lenOfByte len < 2 := by omega
  rw [decodeFV, if_neg hwhole, if_neg htwo, hbody, List.take_left, List.drop_left, if_pos hclean]

/-- Settles O1: the opcode byte says which format it is, and the format's decoder reads the operands back. -/
theorem decodeInvertsEncode : Obligations.DecodeInvertsEncode := by
  intro i w rest hi hw
  cases i with
  | data v =>
    cases hw
    exact decode_data v rest
  | f2 id c =>
    cases hw
    exact (decode_class00 id _).trans (decodeF2_wellFormed hi rest)
  | f4 id d1 d2 c =>
    cases hw
    exact (decode_class01 id _).trans (decodeF4_wellFormed hi rest)
  | f6 id d1 d2 d3 d4 c =>
    cases hw
    exact (decode_class10 id _).trans (decodeF6_wellFormed hi rest)
  | fv id len body =>
    cases hw
    exact (decode_class11 id _).trans (decodeFV_wellFormed hi rest)
  | powerOn =>
    cases hw
    rfl
  | powerOff =>
    cases hw
    rfl
  | getOpSwDataAP1 =>
    cases hw
    rfl
  | _ => cases hw

/-- Settles O3: the words that are read are encodings, so O1 reads them back; the rejections are computed. -/
theorem specWordsDecode : Obligations.SpecWordsDecode :=
  ⟨decodeInvertsEncode .powerOn _ [] rfl rfl, decodeInvertsEncode .powerOff _ [] rfl rfl,
    decodeInvertsEncode .getOpSwDataAP1 _ [] rfl rfl, decodeInvertsEncode (.f2 5 0x7A) _ [] rfl rfl,
    decodeInvertsEncode (.f4 0 0x05 0x40 0x1A) _ [] rfl rfl,
    decodeInvertsEncode (.f6 0x10 0x20 0x11 0x32 0x00 0x2C) _ [] rfl rfl,
    decodeInvertsEncode (.fv 0x0D 0x0B [0x7F, 0x24, 0x02, 0x03, 0x20, 0x00, 0x00, 0x00, 0x63]) _ [] rfl rfl,
    decodeInvertsEncode (.data 0x7F) _ [0x00] rfl rfl, by decide⟩

/-- `i` is well formed, and its encoding with `rest` behind it is `bs`. -/
def Reads (bs : List Byte) (i : Instr) (rest : List Byte) : Prop :=
  i.wellFormed = true ∧ ∃ w, encode i = some w ∧ w ++ rest = bs

section
variable {id : BitVec 5} {bs rest : List Byte} {i : Instr}

theorem decodeF2_reads (h : decodeF2 id bs = .instr i rest) : Reads (opByte 0b100#3 id :: bs) i rest := by
  unfold decodeF2 at h
  split at h
  case h_2 => cases h
  case h_1 c tl =>
    split at h
    case isFalse => cases h
    case isTrue hclean =>
      split at h
      · rename_i hon
        obtain ⟨rfl, rfl⟩ := hon
        cases h
        exact ⟨rfl, _, rfl, rfl⟩
      split at h
      · rename_i hoff
        obtain ⟨rfl, rfl⟩ := hoff
        cases h
        exact ⟨rfl, _, rfl, rfl⟩
      · rename_i hon hoff
        cases h
        exact ⟨wellFormed_f2_iff.mpr ⟨hclean, hon, hoff⟩, _, rfl, rfl⟩

theorem decodeF4_reads (h : decodeF4 id bs = .instr i rest) : Reads (opByte 0b101#3 id :: bs) i rest := by
  unfold decodeF4 at h
  split at h
  case h_2 => cases h
  case h_1 d1 d2 c tl =>
    split at h
    case isFalse => cases h
    case isTrue hclean =>
      split at h
      · rename_i hop
        obtain ⟨rfl, rfl, rfl, rfl⟩ := hop
        cases h
        exact ⟨rfl, _, rfl, rfl⟩
      · rename_i hop
        cases h
        exact ⟨wellFormed_f4_iff.mpr ⟨hclean, hop⟩, _, rfl, rfl⟩

theorem decodeF6_reads (h : decodeF6 id bs = .instr i rest) : Reads (opByte 0b110#3 id :: bs) i rest := by
  unfold decodeF6 at h
  split at h
  case h_2 => cases h
  case h_1 d1 d2 d3 d4 c tl =>
    split at h
    case isFalse => cases h
    case isTrue hclean =>
      cases h
      exact ⟨hclean, _, rfl, rfl⟩

theorem decodeFV_reads (h : decodeFV id bs = .instr i rest) : Reads (opByte 0b111#3 id :: bs) i rest := by
  cases bs with
  | nil => cases h
  | cons len tl =>
    rw [decodeFV] at h
    split at h
    case isTrue => cases h
    case isFalse hwhole =>
      split at h
      case isTrue => cases h
      case isFalse htwo =>
        split at h
        case isFalse => cases h
        case isTrue hclean =>
          cases h
          have hlen : (tl.take (lenOfByte len - 2)).length + 2 = lenOfByte len := by
            rw [List.length_take]
            omega
          exact ⟨wellFormed_fv_iff.mpr ⟨hclean, hlen⟩, _, rfl, by simp [frameFV]⟩

/-- What the decoder answers is well formed and encodes to what was read. -/
theorem decode_reads (h : decode bs = .instr i rest) : Reads bs i rest := by
  cases bs with
  | nil => cases h
  | cons b tl =>
    rcases byte_cases b with ⟨v, rfl⟩ | ⟨id, rfl⟩ | ⟨id, rfl⟩ | ⟨id, rfl⟩ | ⟨id, rfl⟩
    · rw [decode_data] at h
      cases h
      exact ⟨rfl, _, rfl, rfl⟩
    · exact decodeF2_reads (by rwa [decode_class00] at h)
    · exact decodeF4_reads (by rwa [decode_class01] at h)
    · exact decodeF6_reads (by rwa [decode_class10] at h)
    · exact decodeFV_reads (by rwa [decode_class11] at h)

end

/-- Settles O2: each format's decoder answers only well-formed instructions, whose operands are the bytes read. -/
theorem decodedInstructionReencodes : Obligations.DecodedInstructionReencodes :=
  fun _ _ _ h => decode_reads h

end Sys2Proof
end

section
/-! SUPPORT. One pass of the reassembler at a rejected head and at a whole frame; the loop on an empty buffer. -/

namespace Sys2Proof.Machine

/-- R125: a whole candidate frame with another top-bit byte in it loses its candidate byte. -/
theorem judge_unclean {b : Byte} {rest : List Byte} {L : Nat} (hb : top b = true)
    (hL : frameLength (b :: rest) = some L) (hlen : L ≤ (b :: rest).length)
    (hclean : ¬ clean (rest.take (L - 1)) = true) : judge (b :: rest) = .discard 1 := by
  rw [judge_whole hb hL hlen, if_pos (Bool.eq_false_of_not_eq_true hclean), ite_self]

/-- A whole frame whose opcode alone has its top bit set (R70, R77), whatever its checksum. -/
def CleanFrame (w : List Byte) : Prop :=
  ∃ b body, w = b :: body ∧ top b = true ∧ clean body = true ∧ frameLength w = some w.length

theorem cleanFrame_of_WFF {w : List Byte} (h : WFF w = true) : CleanFrame w := by
  obtain ⟨b, body, hw, -, hb, hclean, hL, -⟩ := WFF_iff.mp h
  exact ⟨b, body, hw, hb, hclean, hL⟩

/-- A whole frame has two bytes at least: without a second byte the length of class `11` is unknown. -/
theorem CleanFrame.two_le {w : List Byte} (h : CleanFrame w) : 2 ≤ w.length := by
  obtain ⟨b, body, rfl, -, -, hL⟩ := h
  rcases frameLength_cases hL with h2 | h4 | h6 | ⟨len, tl, rfl, -⟩
  · omega
  · omega
  · omega
  · simp

/-- R126, R127: a whole clean frame at the head is taken whole, and accepted or dropped by its checksum. -/
theorem judge_cleanFrame {w : List Byte} (hw : CleanFrame w) (more : List Byte) :
    judge (w ++ more) = if isChecksumOK w then .accept w.length else .discard w.length := by
  have htwo := hw.two_le
  obtain ⟨b, body, rfl, hb, hclean, hL⟩ := hw
  have hL' : frameLength (b :: (body ++ more)) = some (b :: body).length := frameLength_append hL
  have hbody : (body ++ more).take ((b :: body).length - 1) = body := by simp
  have hframe : (b :: (body ++ more)).take (b :: body).length = b :: body := by simp
  rw [List.cons_append, judge_whole hb hL' (by simp), if_neg (not_lt.mpr htwo), hbody, hframe, hclean]
  cases isChecksumOK (b :: body) <;> rfl

section
variable {K : Classifier} {now : Time} {s : State} {w : List Byte} {k : Nat}

/-- On an empty buffer, a first pass that discards leaves the rest of the chunk to `receive`. -/
theorem receiveWith_discard (hbuf : s.buf = []) (h : judge w = .discard k) :
    receiveWith K w now s = receiveWith K (w.drop k) now s := by
  simp only [receiveWith, hbuf, List.nil_append]
  exact drain_discard h

/-- On an empty buffer, a first pass that takes a frame feeds it, and leaves the rest of the chunk to `receive`. -/
theorem receiveWith_accept (hbuf : s.buf = []) (h : judge w = .accept k) :
    receiveWith K w now s = receiveWith K (w.drop k) now (feed K now (w.take k) s) := by
  simp only [receiveWith, feed_buf, hbuf, List.nil_append]
  rw [← feed_withBuf]
  exact drain_accept h

/-- A whole clean frame on an empty buffer leaves what `frameOutcome` says (R126, R127). -/
theorem receiveWith_cleanFrame (hbuf : s.buf = []) (hw : CleanFrame w) :
    receiveWith K w now s = frameOutcome K w now s := by
  have hj := judge_cleanFrame hw []
  rw [List.append_nil] at hj
  unfold frameOutcome
  split
  · rename_i hok
    rw [if_pos hok] at hj
    rw [receiveWith_accept hbuf hj, List.drop_length, List.take_length]
    exact receiveWith_nil_of_restForm (.inl (by rw [feed_buf, hbuf]))
  · rename_i hbad
    rw [if_neg hbad] at hj
    rw [receiveWith_discard hbuf hj, List.drop_length]
    exact receiveWith_nil_of_restForm (.inl hbuf)

end

end Sys2Proof.Machine
end

section
/-! SUPPORT. The decoder's rejections against one pass of the reassembler (R78, R123 to R125). -/

namespace Sys2Proof

open Machine

/-- Which pass of the reassembler goes with which rejection of a candidate. -/
inductive RejectJudged : Reject → Judgement → Prop
  | incomplete : RejectJudged .incomplete .await
  | shortFrame : RejectJudged .shortFrame (.discard 1)
  | falseOpcode : RejectJudged .falseOpcode (.discard 1)

section
variable {b : Byte} {rest : List Byte} {L : Nat} (hb : top b = true) (hL : frameLength (b :: rest) = some L)
include hb hL

theorem rejectJudged_incomplete (hlen : rest.length + 1 < L) : RejectJudged .incomplete (judge (b :: rest)) := by
  rw [judge_partial hb hL hlen]
  exact .incomplete

theorem rejectJudged_shortFrame (hlen : L ≤ rest.length + 1) (hshort : L < 2) :
    RejectJudged .shortFrame (judge (b :: rest)) := by
  rw [judge_whole hb hL hlen, if_pos hshort]
  exact .shortFrame

theorem rejectJudged_falseOpcode (hlen : L ≤ rest.length + 1) (hclean : ¬ clean (rest.take (L - 1)) = true) :
    RejectJudged .falseOpcode (judge (b :: rest)) := by
  rw [judge_unclean hb hL hlen hclean]
  exact .falseOpcode

end

section
variable {id : BitVec 5} {bs : List Byte} {r : Reject}

theorem decodeF2_reject (h : decodeF2 id bs = .reject r) : RejectJudged r (judge (opByte 0b100#3 id :: bs)) := by
  have hb : top (opByte 0b100#3 id) = true := top_opByte _ id
  have hL := frameLength_class00 id bs
  rcases bs with _ | ⟨c, tl⟩
  · cases h
    exact rejectJudged_incomplete hb hL (by simp)
  · rw [decodeF2] at h
    split at h
    · split at h
      · cases h
      split at h <;> cases h
    · rename_i hclean
      cases h
      exact rejectJudged_falseOpcode hb hL (by simp) hclean

theorem decodeF4_reject (h : decodeF4 id bs = .reject r) : RejectJudged r (judge (opByte 0b101#3 id :: bs)) := by
  have hb : top (opByte 0b101#3 id) = true := top_opByte _ id
  have hL := frameLength_class01 id bs
  rcases bs with _ | ⟨d1, _ | ⟨d2, _ | ⟨c, tl⟩⟩⟩
  iterate 3
    · cases h
      exact rejectJudged_incomplete hb hL (by simp)
  · rw [decodeF4] at h
    split at h
    · split at h <;> cases h
    · rename_i hclean
      cases h
      exact rejectJudged_falseOpcode hb hL (by simp) hclean

theorem decodeF6_reject (h : decodeF6 id bs = .reject r) : RejectJudged r (judge (opByte 0b110#3 id :: bs)) := by
  have hb : top (opByte 0b110#3 id) = true := top_opByte _ id
  have hL := frameLength_class10 id bs
  rcases bs with _ | ⟨d1, _ | ⟨d2, _ | ⟨d3, _ | ⟨d4, _ | ⟨c, tl⟩⟩⟩⟩⟩
  iterate 5
    · cases h
      exact rejectJudged_incomplete hb hL (by simp)
  · rw [decodeF6] at h
    split at h
    · cases h
    · rename_i hclean
      cases h
      exact rejectJudged_falseOpcode hb hL (by simp) hclean

theorem decodeFV_reject (h : decodeFV id bs = .reject r) : RejectJudged r (judge (opByte 0b111#3 id :: bs)) := by
  have hb : top (opByte 0b111#3 id) = true := top_opByte _ id
  have hL := frameLength_class11 id bs
  cases bs with
  | nil =>
    cases h
    rw [judge_unknown hb hL]
    exact .incomplete
  | cons len tl =>
    rw [decodeFV] at h
    split at h
    · rename_i hpart
      cases h
      exact rejectJudged_incomplete hb hL hpart
    rename_i hwhole
    split at h
    · rename_i hshort
      cases h
      exact rejectJudged_shortFrame hb hL (not_lt.mp hwhole) hshort
    rename_i htwo
    split at h
    · cases h
    · rename_i hclean
      cases h
      refine rejectJudged_falseOpcode hb hL (not_lt.mp hwhole) ?_
      rwa [show lenOfByte len - 1 = lenOfByte len - 2 + 1 by omega, List.take_succ_cons]

/-- At a candidate, the reassembler's pass is the one that goes with the decoder's rejection. -/
theorem decode_reject {b : Byte} (hb : top b = true) (h : decode (b :: bs) = .reject r) :
    RejectJudged r (judge (b :: bs)) := by
  rcases byte_cases b with ⟨v, rfl⟩ | ⟨id, rfl⟩ | ⟨id, rfl⟩ | ⟨id, rfl⟩ | ⟨id, rfl⟩
  · simp at hb
  · exact decodeF2_reject (by rwa [decode_class00] at h)
  · exact decodeF4_reject (by rwa [decode_class01] at h)
  · exact decodeF6_reject (by rwa [decode_class10] at h)
  · exact decodeFV_reject (by rwa [decode_class11] at h)

end

/-- The encoding of every well-formed instruction has the form of Laws/PerInstr.lean. -/
theorem wireForm (i : Instr) : Laws.WireForm.Statement i := by
  cases i with
  | data v => exact Laws.WireForm.data v
  | f2 id c => exact Laws.WireForm.f2 id c
  | f4 id d1 d2 c => exact Laws.WireForm.f4 id d1 d2 c
  | f6 id d1 d2 d3 d4 c => exact Laws.WireForm.f6 id d1 d2 d3 d4 c
  | fv id len body => exact Laws.WireForm.fv id len body
  | powerOn => exact Laws.WireForm.powerOn
  | powerOff => exact Laws.WireForm.powerOff
  | getOpSwDataAP1 => exact Laws.WireForm.getOpSwDataAP1
  | _ => exact Laws.WireForm.of_none rfl

/-- At a candidate, what the decoder reads is a whole clean frame. -/
theorem decode_instr_frame {b : Byte} {rest left : List Byte} {i : Instr} (hb : top b = true)
    (h : decode (b :: rest) = .instr i left) : ∃ w, encode i = some w ∧ w ++ left = b :: rest ∧ CleanFrame w := by
  obtain ⟨hi, w, hw, hbytes⟩ := decode_reads h
  refine ⟨w, hw, hbytes, ?_⟩
  obtain ⟨b', body, rfl, hclean, hform⟩ := wireForm i hi w hw
  obtain ⟨rfl, -⟩ := List.cons.inj hbytes
  rcases hform with ⟨hb', -⟩ | ⟨-, hL⟩
  · rw [hb] at hb'
    cases hb'
  · exact ⟨b', body, rfl, hb, hclean, hL⟩

/-- Settles O5: a rejection goes with its pass, and an instruction is a whole clean frame, which is taken by its
checksum. -/
theorem decoderAgreesWithReassembler : Obligations.DecoderAgreesWithReassembler := by
  intro b rest hb
  cases hd : decode (b :: rest) with
  | reject r =>
    have hr := decode_reject hb hd
    generalize judge (b :: rest) = j at hr ⊢
    cases hr <;> simp
  | instr i left =>
    obtain ⟨w, hw, hbytes, hframe⟩ := decode_instr_frame hb hd
    have hj := judge_cleanFrame hframe left
    rw [hbytes] at hj
    have hone : w.length ≠ 1 := (Nat.lt_of_succ_le hframe.two_le).ne'
    refine ⟨?_, ?_, ?_⟩
    · rw [hj]
      cases isChecksumOK w <;> simp
    · rw [hj]
      cases isChecksumOK w <;> simp [hone]
    · rintro _ _ ⟨⟩
      exact ⟨w, hw, hbytes, hj⟩

end Sys2Proof
end

section
/-! SUPPORT. The corner values of a class-`11` length byte (R78, R124), the rows of the wire, and the factories. -/

namespace Sys2Proof

open Machine

section
variable {id : BitVec 5} {rest : List Byte} {len : Byte}

/-- R124: a length byte of 1 loses the candidate. -/
theorem judge_frameFV_one : judge (frameFV id 0x01 rest) = .discard 1 :=
  (judge_whole (top_opByte _ id) (frameLength_class11 id _) (by simp [lenOfByte])).trans (if_pos (by decide))

/-- The two-byte frame of class `11` has a good checksum for opcode `FD` only. -/
theorem isChecksumOK_frameFV_two : isChecksumOK (frameFV id 0x02 []) = decide (id = 0x1D#5) := by
  revert id
  decide

theorem cleanFrame_frameFV (hclean : clean (len :: rest) = true) (hlen : rest.length + 2 = lenOfByte len) :
    CleanFrame (frameFV id len rest) :=
  ⟨_, len :: rest, rfl, top_opByte _ id, hclean, by simp [frameFV, hlen]⟩

/-- A length byte of 2 makes a two-byte frame. -/
theorem judge_frameFV_two : judge (frameFV id 0x02 rest) = if id = 0x1D#5 then .accept 2 else .discard 2 := by
  have hj := judge_cleanFrame (cleanFrame_frameFV (id := id) (len := 0x02) (rest := []) rfl rfl) rest
  rw [isChecksumOK_frameFV_two] at hj
  simpa [frameFV] using hj

/-- A length byte with its top bit set is waited on for as many bytes as it says, and is then itself the offending byte
(R123, R125; decision D2). -/
theorem judge_frameFV_of_top (h : top len = true) :
    judge (frameFV id len rest) = if rest.length + 2 < len.toNat then .await else .discard 1 := by
  obtain ⟨hlen, htwo⟩ := lenOfByte_of_top h
  have hb : top (opByte 0b111#3 id) = true := top_opByte _ id
  have hL : frameLength (frameFV id len rest) = some len.toNat := by rw [frameFV, frameLength_class11, ← hlen]; rfl
  split
  · rename_i hpart
    exact judge_partial hb hL hpart
  · rename_i hwhole
    refine judge_unclean hb hL (not_lt.mp hwhole) ?_
    rw [List.take_cons (by omega), clean_cons, h]
    simp

end

/-- Settles O6: each corner value is one pass of the loop; after the one for length byte 1 the search goes on behind the
candidate. -/
theorem cornerLengthBytes : Obligations.CornerLengthBytes := fun _ _ =>
  ⟨judge_frameFV_one, fun _ _ hbuf => congrArg Host.Outcome.next (receiveWith_discard hbuf judge_frameFV_one),
    judge_frameFV_two, fun _ => judge_frameFV_of_top⟩

/-- Settles O12: the fetch takes the decoded instruction off the bus and leaves what is behind it in front. -/
theorem stepRunsDecodedInstruction : Obligations.StepRunsDecodedInstruction := by
  intro s now bytes later i left hin hd
  have hfetch : fetch s = .run i (takeWire now left later s) := by simp only [fetch, hin, hd]
  simp only [step, hfetch, takeWire, List.isEmpty_iff]

/-- Settles O35: every row of the wire is `arrive` of its bytes, which is `receive` at the state's clock sample. -/
theorem wireRowIsReceiveOfItsBytes : Obligations.WireRowIsReceiveOfItsBytes :=
  ⟨fun _ _ _ hw => ⟨_, exec_wire hw, rfl⟩, fun _ _ _ => rfl⟩

section
variable {s : State} {i : Instr} {w : List Byte}

/-- A row whose bytes are a whole clean frame, on an empty buffer. -/
theorem exec_cleanFrame (hbuf : s.buf = []) (hi : encode i = some w) (hw : CleanFrame w) :
    exec i s = .next (frameOutcome Config.K w s.clock s) :=
  (exec_wire hi).trans (congrArg Host.Outcome.next (receiveWith_cleanFrame hbuf hw))

/-- A row whose bytes are a well-formed frame is fed on, on an empty buffer (R127). -/
theorem exec_goodFrame (hbuf : s.buf = []) (hi : encode i = some w) (hw : WFF w = true) :
    exec i s = .next (feed Config.K s.clock w s) := by
  obtain ⟨-, -, -, -, -, -, -, hok⟩ := WFF_iff.mp hw
  exact (exec_cleanFrame hbuf hi (cleanFrame_of_WFF hw)).trans (congrArg Host.Outcome.next (if_pos hok))

end

/-- Settles O36: a DATA byte is discarded, and the frame of each format is a whole clean frame. -/
theorem wireRowsOnEmptyBuffer : Obligations.WireRowsOnEmptyBuffer := by
  intro s hbuf
  refine ⟨fun v => ?_, fun id c hclean => ?_, fun id d1 d2 c hclean => ?_, fun id d1 d2 d3 d4 c hclean => ?_,
    fun id len rest hclean hlen => ?_⟩
  · rw [exec_wire rfl, receiveWith_discard hbuf (judge_junk (top_byteData v))]
    exact congrArg Host.Outcome.next (receiveWith_nil_of_restForm (.inl hbuf))
  · exact exec_cleanFrame hbuf rfl ⟨_, [c], rfl, top_opByte _ id, hclean, frameLength_class00 id _⟩
  · exact exec_cleanFrame hbuf rfl ⟨_, [d1, d2, c], rfl, top_opByte _ id, hclean, frameLength_class01 id _⟩
  · exact exec_cleanFrame hbuf rfl ⟨_, [d1, d2, d3, d4, c], rfl, top_opByte _ id, hclean, frameLength_class10 id _⟩
  · exact exec_cleanFrame hbuf rfl (cleanFrame_frameFV hclean hlen)

/-- Settles O37: the three frames are well formed, and their Messages are the ones R127 builds from them. -/
theorem concreteFramesFeedTheirMessages : Obligations.ConcreteFramesFeedTheirMessages := by
  intro s m hbuf hm
  rw [hm, hm, hm]
  have hon : WFF framePowerOn = true := by decide
  have hoff : WFF framePowerOff = true := by decide
  have hop : WFF frameGetOpSwDataAP1 = true := by decide
  exact ⟨exec_goodFrame hbuf rfl hon, exec_goodFrame hbuf rfl hoff, exec_goodFrame hbuf rfl hop⟩

/-- A Message enqueued on an idle machine with an empty queue is armed for and transmitted at once (R155, R156). -/
theorem exec_enqueue_idle_trace {s : State} (hf : s.inFlight = none) (hq : s.queue = []) (m : Message) :
    ∃ t, exec (.enqueue m) s = .next t ∧ t.trace = s.trace ++ sendPair m := by
  refine ⟨_, rfl, ?_⟩
  have hhead : s.queue ++ [m] = m :: [] := by rw [hq, List.nil_append]
  rw [startNext_idle (s := { s with queue := s.queue ++ [m] }) hf hhead, armAndTransmit_eq]
  rfl

/-- Settles O38: the output pair of each factory's Message is its timeout and its frame. -/
theorem factoriesTransmitTheirFrames : Obligations.FactoriesTransmitTheirFrames := by
  intro s stamp delta hf hq
  obtain ⟨t1, he1, ht1⟩ := exec_enqueue_idle_trace hf hq (factoryPowerOn stamp delta)
  obtain ⟨t2, he2, ht2⟩ := exec_enqueue_idle_trace hf hq (factoryPowerOff stamp delta)
  obtain ⟨t3, he3, ht3⟩ := exec_enqueue_idle_trace hf hq (factoryGetOpSwDataAP1 stamp delta)
  have hshort : timeout 2 = 3 / 833 := by norm_num [timeout, bitsPerByteOnWire, busRate, safetyFactor]
  have hlong : timeout 4 = 6 / 833 := by norm_num [timeout, bitsPerByteOnWire, busRate, safetyFactor]
  rw [← hshort, ← hlong]
  exact ⟨t1, t2, t3, he1, ht1, he2, ht2, he3, ht3⟩

end Sys2Proof
end

section
/-! SUPPORT. The checksum's laws (R106 to R108): order does not matter, a byte is the checksum of the others, parity. -/

namespace Sys2Proof.Machine

/-- XOR is commutative and associative, so no order matters to its fold (R108). -/
theorem checksum_perm {f g : List Byte} (h : f.Perm g) : checksum f = checksum g := h.foldl_eq cksSeed

theorem checksum_append (f g : List Byte) : checksum (f ++ g) = checksum f ^^^ xorFold 0 g :=
  (xorFold_append _ f g).trans (xorFold_seed _ g)

theorem checksum_cons (x : Byte) (bs : List Byte) : checksum (x :: bs) = x ^^^ checksum bs := by
  rw [← checksum_perm (List.perm_append_singleton x bs), checksum_append, BitVec.xor_comm]
  simp

/-- A byte adds to the checksum the same wherever it stands. -/
theorem checksum_middle (pre post : List Byte) (x : Byte) :
    checksum (pre ++ x :: post) = x ^^^ checksum (pre ++ post) :=
  (checksum_perm List.perm_middle).trans (checksum_cons x _)

theorem isChecksumOK_iff {f : List Byte} : isChecksumOK f = true ↔ checksum f = 0#8 := beq_iff_eq

/-- A frame tests good exactly when any one of its bytes is the checksum of all the others (R102 at the last byte). -/
theorem isChecksumOK_middle {pre post : List Byte} {x : Byte} :
    isChecksumOK (pre ++ x :: post) = true ↔ x = checksum (pre ++ post) := by
  rw [isChecksumOK_iff, checksum_middle, BitVec.xor_eq_zero_iff]

theorem isChecksumOK_concat {bs : List Byte} {c : Byte} : isChecksumOK (bs ++ [c]) = true ↔ c = checksum bs := by
  rw [isChecksumOK_middle, List.append_nil]

/-- R102's unseeded form of the test. -/
theorem isChecksumOK_iff_plain {f : List Byte} : isChecksumOK f = true ↔ xorFold 0 f = 0xFF := by
  rw [isChecksumOK_iff, checksum, xorFold_seed, BitVec.xor_eq_zero_iff, eq_comm]
  rfl

/-- R102's last-byte form of the test. -/
theorem isChecksumOK_iff_getLast? {f : List Byte} :
    isChecksumOK f = true ↔ ∃ c, f.getLast? = some c ∧ c = checksum f.dropLast := by
  rcases List.eq_nil_or_concat' f with rfl | ⟨bs, c, rfl⟩
  · exact ⟨fun h => absurd h (by decide), fun ⟨_, h, _⟩ => nomatch h⟩
  · simp [isChecksumOK_concat]

@[simp] theorem top_xor (a b : Byte) : top (a ^^^ b) = (top a ^^ top b) := BitVec.getLsbD_xor

/-- Settles O8 from the laws of the test and of the fold. -/
theorem checksumTestEquivalentForms : Obligations.ChecksumTestEquivalentForms :=
  ⟨fun _ => ⟨isChecksumOK_iff_plain, isChecksumOK_iff_getLast?⟩, fun _ _ => checksum_perm⟩

/-- Settles O9, by induction on the bytes: one with its top bit set turns the checksum's top bit over. -/
theorem checksumTopBitIsParity : Obligations.ChecksumTopBitIsParity := by
  intro bs
  induction bs with
  | nil => decide
  | cons b bs ih =>
    rw [checksum_cons, top_xor, List.countP_cons]
    cases hb : top b with
    | false => simpa using ih
    | true =>
      have hflip : (true ^^ top (checksum bs)) = true ↔ ¬ top (checksum bs) = true := by simp
      rw [hflip, ih, if_pos rfl]
      omega

/-- R107 (c): the byte at a place of a good frame is fixed by the others. -/
theorem isChecksumOK_changed {pre post : List Byte} {x y : Byte} (hx : isChecksumOK (pre ++ x :: post) = true)
    (hne : y ≠ x) : isChecksumOK (pre ++ y :: post) = false :=
  Bool.eq_false_iff.mpr fun hy => hne ((isChecksumOK_middle.mp hy).trans (isChecksumOK_middle.mp hx).symm)

/-- R107 (c): one difference at two places cancels out. -/
theorem checksum_changed_twice (pre mid post : List Byte) (x y d : Byte) :
    checksum (pre ++ (x ^^^ d) :: mid ++ (y ^^^ d) :: post) = checksum (pre ++ x :: mid ++ y :: post) := by
  have hpair (u v : Byte) :
      checksum (pre ++ u :: mid ++ v :: post) = (u ^^^ v) ^^^ checksum (pre ++ (mid ++ post)) := by
    rw [checksum_middle, List.append_assoc, List.cons_append, checksum_middle, ← BitVec.xor_assoc, BitVec.xor_comm v]
  have hcancel : (x ^^^ d) ^^^ (y ^^^ d) = x ^^^ y := by
    rw [BitVec.xor_comm y, BitVec.xor_assoc, ← BitVec.xor_assoc d, BitVec.xor_self, BitVec.zero_xor]
  rw [hpair, hpair, hcancel]

/-- R107 (d): behind a good frame the fold starts from 0, which is the wrong seed. -/
theorem isChecksumOK_glued {f g : List Byte} (hf : isChecksumOK f = true) (hg : isChecksumOK g = true) :
    isChecksumOK (f ++ g) = false := by
  have hfold : checksum (f ++ g) = 0xFF := by
    rw [checksum_append, isChecksumOK_iff.mp hf, isChecksumOK_iff_plain.mp hg]
    rfl
  rw [Bool.eq_false_iff, ne_eq, isChecksumOK_iff, hfold]
  decide

/-- Settles O10: what one change, two equal changes and gluing do to the checksum. -/
theorem checksumDetectsSingleByteErrors : Obligations.ChecksumDetectsSingleByteErrors :=
  ⟨fun _ _ _ _ => isChecksumOK_changed,
    fun _ _ _ _ _ _ h => isChecksumOK_iff.mpr ((checksum_changed_twice ..).trans (isChecksumOK_iff.mp h)),
    fun _ _ => isChecksumOK_glued⟩

/-- Settles O7: the last byte of a good frame is the checksum of the rest. -/
theorem checksumRoundTrip : Obligations.ChecksumRoundTrip := by
  refine ⟨fun b => ⟨List.dropLast_concat, isChecksumOK_concat.mpr rfl⟩, fun f hne hok => ?_⟩
  obtain ⟨c, hlast, rfl⟩ := isChecksumOK_iff_getLast?.mp hok
  exact List.dropLast_append_getLast? _ hlast

/-- Settles O11: both guards of the construction, and the Message it builds. -/
theorem messageFromFrameValidates : Obligations.MessageFromFrameValidates := by
  intro f stamp delta m
  rw [mkMessageFromFrame, ← and_assoc, eq_comm (a := m)]
  split
  next hok => rw [Option.some_inj, and_iff_right hok]; rfl
  next hbad => exact ⟨nofun, fun ⟨hok, _⟩ => absurd hok hbad⟩

end Sys2Proof.Machine
end

/-! # Proofs of the family 41_reassembler: what the reassembler delivers, how a stream may be cut, the frames -/

section
/-! SUPPORT. The Messages delivered: only by `deliver`, and only of well-formed frames (R133). -/

namespace Sys2Proof.Machine

/-- R106 on a well-formed frame: without its checksum it is well-formed Message bytes. -/
theorem WF_stripChecksum {f : List Byte} (h : WFF f = true) : WF (stripChecksum f) = true := by
  obtain ⟨b, body, rfl, -, -, -, -, hok⟩ := WFF_iff.mp h
  rw [WF, checksumRoundTrip.2 _ (List.cons_ne_nil b body) hok]
  exact h

section
variable {s : State} {o : ObserverId} {m : Message}

/-! The send machine puts no delivery into the trace (R167, R192). -/

@[simp] theorem deliver_mem_armAndTransmit (x : Message) :
    .deliver o m ∈ (armAndTransmit x s).trace ↔ .deliver o m ∈ s.trace := by
  simp [armAndTransmit_eq]

@[simp] theorem deliver_mem_cancel : .deliver o m ∈ (cancel s).trace ↔ .deliver o m ∈ s.trace := by
  rw [cancel_eq]
  cases s.deadline <;> simp

@[simp] theorem deliver_mem_startNext : .deliver o m ∈ (startNext s).trace ↔ .deliver o m ∈ s.trace := by
  rcases startNext_cases s with ⟨he, -⟩ | ⟨x, rest, -, -, he⟩ <;> simp [he]

@[simp] theorem deliver_mem_complete : .deliver o m ∈ (complete s).trace ↔ .deliver o m ∈ s.trace := by
  simp [complete]

@[simp] theorem deliver_mem_resend (f : InFlight) :
    .deliver o m ∈ (resend f s).trace ↔ .deliver o m ∈ s.trace := by
  simp [resend]

@[simp] theorem deliver_mem_ackMatch (K : Classifier) (x : Message) :
    .deliver o m ∈ (ackMatch K x s).trace ↔ .deliver o m ∈ s.trace := by
  rcases ackMatch_cases K x s with he | ⟨f, -, he | ⟨-, -, he⟩ | ⟨-, -, he⟩ | ⟨-, he⟩⟩ <;> simp [he]

@[simp] theorem deliver_mem_expire (f : InFlight) :
    .deliver o m ∈ (expire f s).trace ↔ .deliver o m ∈ s.trace := by
  rcases expire_cases f s with ⟨-, he⟩ | ⟨-, he⟩ <;> simp [he]

end

/-- An operation that adds no delivery keeps what is said of the deliveries. -/
theorem DeliversWellFormed.congr {tr tr' : List OutEvent} (h : DeliversWellFormed tr)
    (hmem : ∀ o m, .deliver o m ∈ tr' ↔ .deliver o m ∈ tr) : DeliversWellFormed tr' :=
  fun o m hm => h o m ((hmem o m).mp hm)

/-- Feeding a well-formed frame delivers its well-formed Message. -/
theorem DeliversWellFormed.feed {s : State} (h : DeliversWellFormed s.trace) (K : Classifier) (now : Time)
    {f : List Byte} (hf : WFF f = true) : DeliversWellFormed (feed K now f s).trace := by
  intro o m hm
  simp only [Machine.feed, deliver_trace, List.mem_append, deliver_mem_ackMatch, List.mem_map] at hm
  rcases hm with hold | ⟨o', -, hnew⟩
  · exact h o m hold
  · cases hnew
    exact WF_stripChecksum hf

/-- R133 is kept by everything a step is made of: only `receive` delivers, and only
what it has taken as a frame. -/
theorem deliversWellFormed_kept : KeptByOps fun s => DeliversWellFormed s.trace where
  environment _ _ h := h
  receive chunk now h := receiveWith_keeps (P := fun s => DeliversWellFormed s.trace) (fun _ _ h => h)
    (fun _ _ hf h => h.feed Config.K now hf) chunk h
  enqueue _ h := h.congr fun _ _ => deliver_mem_startNext
  disarm _ h := h
  expire _ h := h.congr fun _ _ => deliver_mem_expire _
  detach h := h.congr fun _ _ => deliver_mem_cancel
  addObserver _ h := h
  removeObserver _ h := h
  reset h := h.congr fun _ _ => deliver_mem_cancel

/-- Settles O22: every operation delivers nothing, or the Message of a frame that the reassembler found well formed. -/
theorem stepDeliversOnlyWellFormed : Obligations.StepDeliversOnlyWellFormed :=
  fun _ _ hs h => deliversWellFormed_kept.step h hs

end Sys2Proof.Machine
end

section
/-! SUPPORT. What one `receive` makes of the bytes in front: the buffer and the chunk, junk, a partial frame, a false
opcode, a good frame (R120 to R127), and the rest form it ends in (R129). -/

namespace Sys2Proof.Machine

/-- Settles O25: both sides run the loop on the same bytes (R120). -/
theorem receiveReadsBufferThenChunk : Obligations.ReceiveReadsBufferThenChunk := fun _ _ _ => ⟨_, rfl, rfl⟩

/-- A buffer in rest form is short: the frame it waits for has 255 bytes at most. -/
theorem RestForm.length_le {buf : List Byte} (h : RestForm buf) : buf.length ≤ 254 := by
  rcases h with rfl | ⟨b, rest, rfl, -, hpartial⟩
  · simp
  · cases hL : frameLength (b :: rest) with
    | none => simp [frameLength_none hL]
    | some L =>
      have hshort := hpartial L hL
      have hmax := frameLength_le hL
      omega

/-- The loop returns on a buffer in rest form only (R129). -/
theorem receiveWith_restForm (K : Classifier) (chunk : List Byte) (now : Time) (s : State) :
    RestForm (receiveWith K chunk now s).buf :=
  judge_await_iff.mp (drain_judge K now _)

/-- Settles O20: the loop ends where it waits, and it waits on short buffers only. -/
theorem receiveLeavesRestForm : Obligations.ReceiveLeavesRestForm := fun s chunk now =>
  have hrest := receiveWith_restForm Config.K chunk now s
  ⟨_, rfl, hrest, hrest.length_le⟩

section
variable {K : Classifier} {now : Time} {s : State}

/-- R121: junk in front of a chunk makes no difference. -/
theorem receiveWith_junk (hbuf : s.buf = []) {junk : List Byte} (hjunk : clean junk = true) (rest : List Byte) :
    receiveWith K (junk ++ rest) now s = receiveWith K rest now s := by
  induction junk with
  | nil => rfl
  | cons b junk ih =>
    simp only [clean_cons, Bool.and_eq_true, Bool.not_eq_true'] at hjunk
    exact (receiveWith_discard hbuf (judge_junk hjunk.1)).trans (ih hjunk.2)

/-- R123: what is in rest form is kept as it came. -/
theorem receiveWith_of_restForm (hbuf : s.buf = []) {chunk : List Byte} (h : RestForm chunk) :
    receiveWith K chunk now s = { s with buf := chunk } := by
  rw [receiveWith, hbuf, List.nil_append]
  exact drain_await (judge_await_iff.mpr h)

/-- R127: a good frame in front of a chunk is fed on, and the loop goes on behind it. -/
theorem receiveWith_goodFrame (hbuf : s.buf = []) {f : List Byte} (hf : WFF f = true) (rest : List Byte) :
    receiveWith K (f ++ rest) now s = receiveWith K rest now (feed K now f s) := by
  rw [receiveWith_accept hbuf (judge_WFF hf rest), List.drop_left, List.take_left]

end

/-- Settles O26: each junk byte is one discarding pass. -/
theorem leadingJunkIsDiscarded : Obligations.LeadingJunkIsDiscarded := by
  intro s junk rest now hbuf hjunk
  refine ⟨congrArg Host.Outcome.next ?_, congrArg Host.Outcome.next (receiveWith_junk hbuf hjunk rest)⟩
  calc receiveWith Config.K junk now s
      = receiveWith Config.K [] now s := by simpa using receiveWith_junk hbuf hjunk []
    _ = s := receiveWith_nil_of_restForm (.inl hbuf)

/-- Settles O27: such a candidate is in rest form. -/
theorem partialFrameIsAwaited : Obligations.PartialFrameIsAwaited := fun _ b rest _ hbuf hb hpartial =>
  congrArg Host.Outcome.next (receiveWith_of_restForm hbuf (.inr ⟨b, rest, rfl, hb, hpartial⟩))

/-- A byte with its top bit set among the first `n` makes them unclean. -/
theorem not_clean_take {bs : List Byte} {n i : Nat} {x : Byte} (hi : i < n) (hx : bs[i]? = some x)
    (htop : top x = true) : ¬ clean (bs.take n) = true := by
  intro hclean
  have hmem : x ∈ bs.take n := List.mem_of_getElem? ((List.getElem?_take_of_lt hi).trans hx)
  rw [clean_iff.mp hclean x hmem] at htop
  cases htop

/-- Settles O28: the pass that finds the other candidate discards one byte. -/
theorem falseOpcodeConsumesOneByte : Obligations.FalseOpcodeConsumesOneByte := by
  intro s b rest L i x now hbuf hb hL hlen hpos hi hx htop
  obtain ⟨j, rfl⟩ : ∃ j, i = j + 1 := ⟨i - 1, by omega⟩
  have hunclean : ¬ clean (rest.take (L - 1)) = true := not_clean_take (by omega) hx htop
  exact congrArg Host.Outcome.next (receiveWith_discard hbuf (judge_unclean hb hL hlen hunclean))

/-- Settles O30: the Message is the one `feed` builds, and with nothing behind the frame the loop returns. -/
theorem goodFrameIsFed : Obligations.GoodFrameIsFed := by
  intro s f rest now hbuf hf
  refine ⟨decodedMessage f s.lastStamp now, rfl, congrArg Host.Outcome.next ?_,
    congrArg Host.Outcome.next (receiveWith_goodFrame hbuf hf rest)⟩
  calc receiveWith Config.K f now s
      = receiveWith Config.K [] now (feed Config.K now f s) := by
        simpa using receiveWith_goodFrame (K := Config.K) (now := now) hbuf hf []
    _ = feed Config.K now f s := receiveWith_nil_of_restForm (.inl (by rw [feed_buf, hbuf]))

end Sys2Proof.Machine
end

section
/-! SUPPORT. The acknowledgement matcher reads and writes the send machine's own elements and appends to the trace; so
it runs alike on two states that differ in anything else. -/

namespace Sys2Proof.Machine

/-- The send machine's elements of `s`, everything else as after reset. -/
def State.sendPart (s : State) : State :=
  { State.reset with queue := s.queue, inFlight := s.inFlight, deadline := s.deadline }

/-- `s` with the send machine's elements of `c`, and the outputs of `c` behind its own. -/
def State.withSend (s c : State) : State :=
  { s with queue := c.queue, inFlight := c.inFlight, deadline := c.deadline, trace := s.trace ++ c.trace }

theorem sendPart_eq_iff {s t : State} : t.sendPart = s.sendPart ↔
    t.queue = s.queue ∧ t.inFlight = s.inFlight ∧ t.deadline = s.deadline := by
  simp [State.sendPart]

theorem complete_local (s : State) : complete s = s.withSend (complete s.sendPart) := by
  obtain ⟨_, _, q, _, dl, _, tr, _, _, _⟩ := s
  cases q <;> cases dl <;>
    simp [complete, startNext, cancel_eq, armAndTransmit_eq, State.withSend, State.sendPart, State.reset]

theorem resend_local (f : InFlight) (s : State) : resend f s = s.withSend (resend f s.sendPart) := by
  simp only [resend, armAndTransmit_eq]
  rfl

theorem withSend_sendPart (s : State) : s.withSend s.sendPart = s := by
  simp [State.withSend, State.sendPart, State.reset]

theorem echo_local (K : Classifier) (f : InFlight) (s : State) : echo K f s = s.withSend (echo K f s.sendPart) := by
  unfold echo
  cases cmdClass K f.cur.bytes with
  | ordinary => exact complete_local s
  | imm => rfl
  | switchAck => rfl

theorem matchReply_local (K : Classifier) (m : Message) (f : InFlight) (s : State) :
    matchReply K m f s = s.withSend (matchReply K m f s.sendPart) := by
  unfold matchReply
  have hcomplete := complete_local s
  have hresend := resend_local f s
  have hself := (withSend_sendPart s).symm
  cases f.wait with
  | sending => exact hself
  | awaitingDigitalPacketAck =>
    cases K.isImmAccepted m.bytes
    · cases K.isImmBufferFull m.bytes
      · exact hself
      · exact hresend
    · exact hcomplete
  | awaitingSwitchAck =>
    cases K.isSwitchAccepted m.bytes
    · cases K.isSwitchRejected m.bytes
      · exact hself
      · exact hresend
    · exact hcomplete

/-- `AckMatch` on any state is `AckMatch` on the send machine's elements of that state, by the branches of R159. -/
theorem ackMatch_local (K : Classifier) (m : Message) (s : State) :
    ackMatch K m s = s.withSend (ackMatch K m s.sendPart) := by
  have hpart : s.sendPart.inFlight = s.inFlight := rfl
  unfold ackMatch
  rw [hpart]
  cases s.inFlight with
  | none => exact (withSend_sendPart s).symm
  | some f =>
    by_cases hecho : m.bytes = f.cur.bytes
    · simpa only [if_pos hecho] using echo_local K f s
    · simpa only [if_neg hecho] using matchReply_local K m f s

/-- Feeding a frame does not depend on what the environment holds (R132). -/
theorem feed_withEnvironment (K : Classifier) (now : Time) (f : List Byte) (s : State) (clock : Time)
    (later : List Input) :
    feed K now f { s with clock := clock, inputs := later } =
      { feed K now f s with clock := clock, inputs := later } := by
  unfold feed
  rw [ackMatch_local, ackMatch_local K _ { s with lastStamp := some now }]
  rfl

theorem untimed_withSend (s c : State) : (s.withSend c).untimed = s.untimed.withSend c.untimed := by
  simp [State.untimed, State.withSend]

theorem untimed_deliver (m : Message) (s : State) :
    (deliver m s).untimed = deliver { m with stamp := 0, delta := 0 } s.untimed := by
  simp [State.untimed, deliver, OutEvent.untimed]

/-- But for the clock readings, what feeding a frame leaves is fixed by the frame and by what `s` is but for them (R127,
R244). -/
theorem feed_untimed (K : Classifier) (now : Time) (f : List Byte) (s : State) :
    (feed K now f s).untimed = deliver (decodedMessage f none 0)
      (s.untimed.withSend (ackMatch K (decodedMessage f none 0) s.untimed.sendPart).untimed) := by
  rw [feed, untimed_deliver, ackMatch_local, untimed_withSend]
  rfl

end Sys2Proof.Machine
end

section
/-! SUPPORT. What the send operations, the passes of the loop and `receive` leave alone (R58, R120, R127, R132,
R167). -/

namespace Sys2Proof.Machine

/-- Each of the three entry points of the send machine stays within its frame (R132). -/
theorem exec_sendFrame {i : Instr} (hi : (∃ m, i = .enqueue m) ∨ i = .timerExpiry ∨ i = .detach) (s : State) :
    ∃ t, exec i s = .next t ∧ SendFrame s t := by
  have hself := SendFrame.refl s
  rcases hi with ⟨m, rfl⟩ | rfl | rfl
  · exact ⟨_, rfl, (hself.update _ s.inFlight s.deadline).trans (startNext_frame _)⟩
  · rcases exec_timerExpiry_cases s with he | ⟨-, he⟩ | ⟨f, -, he⟩
    · exact ⟨_, he, hself⟩
    · exact ⟨_, he, hself.update s.queue s.inFlight _⟩
    · exact ⟨_, he, (hself.update s.queue s.inFlight _).trans (expire_frame f _)⟩
  · exact ⟨_, rfl, (hself.update _ _ s.deadline).trans (cancel_frame _)⟩

/-- Settles O59: field by field, the frame of the send machine. -/
theorem sendOperationsFrame : Obligations.SendOperationsFrame := by
  intro i s hi
  obtain ⟨t, he, h⟩ := exec_sendFrame hi s
  exact ⟨t, he, h.buf, h.lastStamp, h.observers, h.inputs, h.clock, h.draws, h.trace⟩

/-- What bytes from the bus leave alone: the observers and the environment's part, and the outputs so far; with nothing
in flight the send machine too, and then only deliveries come. -/
structure BusFrame (s t : State) : Prop where
  observers : t.observers = s.observers
  inputs : t.inputs = s.inputs
  clock : t.clock = s.clock
  outputs : ∃ new, t.trace = s.trace ++ new ∧ (s.inFlight = none → ∀ e ∈ new, ∃ o m, e = .deliver o m)
  idle : s.inFlight = none → t.sendPart = s.sendPart

theorem BusFrame.refl (s : State) : BusFrame s s := ⟨rfl, rfl, rfl, ⟨[], by simp⟩, fun _ => rfl⟩

theorem BusFrame.trans {s t u : State} (h : BusFrame s t) (k : BusFrame t u) : BusFrame s u := by
  obtain ⟨new, hnew, honly⟩ := h.outputs
  obtain ⟨new', hnew', honly'⟩ := k.outputs
  have hflight (hs : s.inFlight = none) : t.inFlight = none := by
    obtain ⟨-, hf, -⟩ := sendPart_eq_iff.mp (h.idle hs)
    exact hf.trans hs
  refine ⟨k.observers.trans h.observers, k.inputs.trans h.inputs, k.clock.trans h.clock,
    ⟨new ++ new', by rw [hnew', hnew, List.append_assoc], fun hs e he => ?_⟩,
    fun hs => (k.idle (hflight hs)).trans (h.idle hs)⟩
  rcases List.mem_append.mp he with he | he
  · exact honly hs e he
  · exact honly' (hflight hs) e he

theorem BusFrame.trace {s t : State} (h : BusFrame s t) : s.trace <+: t.trace := by
  obtain ⟨new, hnew, -⟩ := h.outputs
  exact ⟨new, hnew.symm⟩

/-- What the buffer holds is outside this frame. -/
theorem BusFrame.withBuf {s t : State} (h : BusFrame s t) (b : List Byte) : BusFrame s { t with buf := b } :=
  ⟨h.observers, h.inputs, h.clock, h.outputs, h.idle⟩

/-- With nothing in flight a frame is stamped and delivered (R127, R167). -/
theorem feed_idle {K : Classifier} {now : Time} {f : List Byte} {s : State} (h : s.inFlight = none) :
    feed K now f s = deliver (decodedMessage f s.lastStamp now) { s with lastStamp := some now } :=
  congrArg (deliver _) (ackMatch_idle h)

theorem feed_busFrame (K : Classifier) (now : Time) (f : List Byte) (s : State) : BusFrame s (feed K now f s) := by
  obtain ⟨hobs, hin, hclock, -, new, hnew⟩ := feed_frame K now f s
  by_cases hs : s.inFlight = none
  · rw [feed_idle hs]
    refine ⟨rfl, rfl, rfl, ⟨_, rfl, fun _ e he => ?_⟩, fun _ => rfl⟩
    obtain ⟨o, -, rfl⟩ := List.mem_map.mp he
    exact ⟨o, _, rfl⟩
  · exact ⟨hobs, hin, hclock, ⟨new, hnew.symm, fun h => absurd h hs⟩, fun h => absurd h hs⟩

theorem drain_busFrame (K : Classifier) (now : Time) (s : State) : BusFrame s (drain K now s) :=
  drain_keeps (P := BusFrame s) (fun _ b h => h.withBuf b) (fun u f _ h => h.trans (feed_busFrame K now f u)) s
    (.refl s)

theorem receiveWith_busFrame (K : Classifier) (chunk : List Byte) (now : Time) (s : State) :
    BusFrame s (receiveWith K chunk now s) :=
  ((BusFrame.refl s).withBuf _).trans (drain_busFrame K now _)

/-- Settles O60: each such instruction is a `receive`, and every pass of it stays within the frame. -/
theorem receiveFrame : Obligations.ReceiveFrame := by
  intro i s hi
  have hexec : ∃ chunk now, exec i s = .next (receiveWith Config.K chunk now s) := by
    rcases hi with ⟨chunk, now, rfl⟩ | ⟨w, hw⟩
    · exact ⟨chunk, now, rfl⟩
    · exact ⟨w, s.clock, exec_wire hw⟩
  obtain ⟨chunk, now, he⟩ := hexec
  have h := receiveWith_busFrame Config.K chunk now s
  obtain ⟨new, hnew, honly⟩ := h.outputs
  refine ⟨_, new, he, h.observers, h.inputs, h.clock, hnew, fun hs => ?_⟩
  obtain ⟨hqueue, hflight, hdeadline⟩ := sendPart_eq_iff.mp (h.idle hs)
  exact ⟨hflight.trans hs, hqueue, hdeadline, honly hs⟩

end Sys2Proof.Machine
end

section
/-! SUPPORT. Two runs of the loop side by side, and one run cut in two (R130). -/

namespace Sys2Proof.Machine

/-- Two runs of the loop stay related when the relation fixes the buffer, and survives the same bytes taken off both
buffers and the same frame fed to both. -/
theorem drain_related {K : Classifier} {now now' : Time} {R : State → State → Prop}
    (buf : ∀ {s s'}, R s s' → s'.buf = s.buf)
    (drop : ∀ {s s'} b, R s s' → R { s with buf := b } { s' with buf := b })
    (feeds : ∀ {s s'} f, R s s' → R (feed K now f s) (feed K now' f s')) {s s' : State} (h : R s s') :
    R (drain K now s) (drain K now' s') := by
  revert s'
  refine drain_induction (K := K) (now := now)
    (P := fun s => ∀ {s'}, R s s' → R (drain K now s) (drain K now' s')) ?_ ?_ ?_ s
  · intro s hj s' h
    rwa [drain_await hj, drain_await (by rwa [buf h])]
  · intro s k hj ih s' h
    rw [drain_discard hj, drain_discard (s := s') (by rwa [buf h]), buf h]
    exact ih (drop _ h)
  · intro s k hj ih s' h
    rw [drain_accept hj, drain_accept (s := s') (by rwa [buf h]), buf h]
    exact ih (feeds _ (drop _ h))

/-- `receive` does not depend on what the environment holds. -/
theorem receiveWith_withEnvironment (K : Classifier) (chunk : List Byte) (now : Time) (s : State) (clock : Time)
    (later : List Input) :
    receiveWith K chunk now { s with clock := clock, inputs := later } =
      { receiveWith K chunk now s with clock := clock, inputs := later } :=
  drain_related (R := fun s s' => s' = { s with clock := clock, inputs := later }) (fun h => by rw [h])
    (fun _ h => by rw [h]) (fun f h => by rw [h, feed_withEnvironment]) rfl

/-- `receive` does the same whatever the clock reads, but for the clock readings it hands on (R244). -/
theorem receiveWith_untimed {K : Classifier} (chunk : List Byte) {now now' : Time} {s s' : State}
    (h : s.untimed = s'.untimed) :
    (receiveWith K chunk now s).untimed = (receiveWith K chunk now' s').untimed := by
  have hbuffer {u u' : State} (hu : u.untimed = u'.untimed) : u'.buf = u.buf := (congrArg State.buf hu).symm
  have hwithBuf {u u' : State} (b : List Byte) (hu : u.untimed = u'.untimed) :
      ({ u with buf := b } : State).untimed = ({ u' with buf := b } : State).untimed :=
    congrArg (fun v : State => { v with buf := b }) hu
  refine drain_related (R := fun s s' => s.untimed = s'.untimed) hbuffer hwithBuf ?_ ?_
  · intro u u' f hu
    rw [feed_untimed, feed_untimed, hu]
  · rw [hbuffer h]
    exact hwithBuf _ h

/-- The loop on a buffer with bytes behind it is the loop on the buffer, then the loop with those bytes behind what is
left: a pass that decides does not read them (R130). -/
theorem drain_append (K : Classifier) (now : Time) (more : List Byte) (s : State) :
    drain K now { s with buf := s.buf ++ more } = receiveWith K more now (drain K now s) := by
  refine drain_induction (K := K) (now := now)
    (P := fun s => drain K now { s with buf := s.buf ++ more } = receiveWith K more now (drain K now s)) ?_ ?_ ?_ s
  · intro s hj
    rw [drain_await hj, receiveWith]
  · intro s k hj ih
    have hj' : judge (s.buf ++ more) = .discard k := by rw [judge_append (by simp [hj]), hj]
    rw [drain_discard hj, ← ih, drain_discard (s := { s with buf := s.buf ++ more }) hj',
      List.drop_append_of_le_length (judge_discard hj).2]
  · intro s k hj ih
    obtain ⟨-, hk, -⟩ := judge_accept hj
    have hj' : judge (s.buf ++ more) = .accept k := by rw [judge_append (by simp [hj]), hj]
    rw [drain_accept hj, ← ih, drain_accept (s := { s with buf := s.buf ++ more }) hj',
      List.drop_append_of_le_length hk, List.take_append_of_le_length hk, feed_buf, ← feed_withBuf]

/-- With one clock sample, a stream over two calls of `receive` is the stream in one (R130). -/
theorem receiveWith_append (K : Classifier) (a b : List Byte) (now : Time) (s : State) :
    receiveWith K (a ++ b) now s = receiveWith K b now (receiveWith K a now s) := by
  rw [receiveWith, ← List.append_assoc]
  exact drain_append K now b { s with buf := s.buf ++ a }

/-- Settles O31: the loop cut in two is the loop, and other clock samples change clock readings only. -/
theorem chunkingIsUnobservable : Obligations.ChunkingIsUnobservable := fun s a b t _ _ =>
  have hcut := receiveWith_append Config.K a b t s
  ⟨_, _, _, _, rfl, rfl, rfl, (congrArg State.untimed hcut).trans (receiveWith_untimed b (receiveWith_untimed a rfl)),
    rfl, congrArg Host.Outcome.next hcut.symm⟩

end Sys2Proof.Machine
end

section
/-! SUPPORT. The bytes on the bus, run instruction by instruction as the decoder cuts them (log 5). -/

namespace Sys2Proof

open Machine

/-- A step on bytes whose head decodes is `receive` of the bytes that were decoded. -/
theorem step_decoded {s : State} {now : Time} {bytes left : List Byte} {later : List Input} {i : Instr}
    (hin : s.inputs = .wire now bytes :: later) (hd : decode bytes = .instr i left) :
    ∃ w, w ≠ [] ∧ w ++ left = bytes ∧
      step s = .next (receiveWith Config.K w now
        { s with clock := now, inputs := if left = [] then later else .wire now left :: later }) := by
  obtain ⟨-, w, hw, hbytes⟩ := decode_reads hd
  exact ⟨w, encode_ne_nil hw, hbytes,
    (stepRunsDecodedInstruction s now bytes later i left hin hd).trans (exec_wire hw)⟩

/-- A step on bytes whose head does not decode is `receive` of them all. -/
theorem step_rejected {s : State} {now : Time} {bytes : List Byte} {later : List Input} {r : Reject}
    (hin : s.inputs = .wire now bytes :: later) (hd : decode bytes = .reject r) :
    step s = .next (receiveWith Config.K bytes now { s with clock := now, inputs := later }) := by
  simp only [step, fetch, hin, hd]
  rfl

/-- A step that goes on, then a run from where it ends. -/
theorem run_of_step {s t : State} (h : step s = .next t) (n : Nat) :
    Host.Core.run core (n + 1) s = Host.Core.run core n t := by
  have hcore : core.step s = .next t := h
  simp only [Host.Core.run, hcore]

/-- By induction on the bytes: the bytes in front of the schedule, run instruction by instruction, are received at their
clock sample. -/
theorem run_wire (now : Time) (later : List Input) (bytes : List Byte) (s : State)
    (hin : s.inputs = .wire now bytes :: later) :
    ∃ n, Host.Core.run core n s =
      .next (receiveWith Config.K bytes now { s with clock := now, inputs := later }) := by
  induction hn : bytes.length using Nat.strong_induction_on generalizing bytes s with
  | _ n ih =>
    cases hd : decode bytes with
    | reject r => exact ⟨1, run_of_step (step_rejected hin hd) 0⟩
    | instr i left =>
      obtain ⟨w, hw, rfl, hstep⟩ := step_decoded hin hd
      by_cases hleft : left = []
      · subst hleft
        rw [if_pos rfl] at hstep
        exact ⟨1, by rw [List.append_nil]; exact run_of_step hstep 0⟩
      · rw [if_neg hleft] at hstep
        have hframe := receiveWith_busFrame Config.K w now { s with clock := now, inputs := .wire now left :: later }
        have hshorter : left.length < n := by
          have := List.length_pos_iff.mpr hw
          rw [← hn, List.length_append]
          omega
        obtain ⟨k, hk⟩ := ih left.length hshorter left _ hframe.inputs rfl
        refine ⟨k + 1, (run_of_step hstep k).trans (hk.trans (congrArg Host.Outcome.next ?_))⟩
        rw [receiveWith_append, ← receiveWith_withEnvironment]

/-- Settles O15: the run ends where one `receive` of all the bytes ends. -/
theorem busBytesCutEqualsOneReceive : Obligations.BusBytesCutEqualsOneReceive := by
  intro s now bytes later hin
  obtain ⟨n, hn⟩ := run_wire now later bytes s hin
  exact ⟨n, _, hn, rfl⟩

end Sys2Proof
end

section
/-! SUPPORT. Resynchronisation: no group of bytes that the loop consumes reaches into a well-formed frame from before
it, and with 254 bytes behind the frame the loop does not wait before it (R131). -/

namespace Sys2Proof.Machine

/-- What the loop consumes ahead of a candidate byte ends ahead of it: the bytes behind the opcode of a frame are
clean. -/
theorem judge_stops_at_candidate {pre rest : List Byte} {b : Byte} (hpre : pre ≠ []) (hb : top b = true)
    (hlong : 254 ≤ rest.length) :
    ∃ k ≤ pre.length, judge (pre ++ b :: rest) = .discard k ∨ judge (pre ++ b :: rest) = .accept k := by
  have hpos : 1 ≤ pre.length := List.length_pos_iff.mpr hpre
  have hdecides : judge (pre ++ b :: rest) ≠ .await := by
    intro hawait
    have hshort := (judge_await_iff.mp hawait).length_le
    simp only [List.length_append, List.length_cons] at hshort
    omega
  obtain ⟨c, tl, hbuf, hone | ⟨L, -, -, -, -, hclean, hL⟩⟩ := judge_decides hdecides
  · exact ⟨1, hpos, .inl hone⟩
  · refine ⟨L, ?_, hL.imp And.right And.right⟩
    by_contra hreach
    obtain ⟨p, hp⟩ : ∃ p, pre.length = p + 1 := ⟨pre.length - 1, by omega⟩
    have hat : tl[p]? = some b := by
      rw [← List.getElem?_cons_succ (a := c), ← hbuf, ← hp]
      simp
    exact not_clean_take (by omega) hat hb hclean

/-- From `s` to `t` a Message of the bytes `bs` has been delivered to `o`. -/
def Delivered (o : ObserverId) (bs : List Byte) (s t : State) : Prop :=
  ∃ new m, t.trace = s.trace ++ new ∧ .deliver o m ∈ new ∧ m.bytes = bs

section
variable {o : ObserverId} {bs : List Byte} {s t u : State}

theorem Delivered.after (h : Delivered o bs t u) (hst : s.trace <+: t.trace) : Delivered o bs s u := by
  obtain ⟨new, m, hnew, hmem, hm⟩ := h
  obtain ⟨old, hold⟩ := hst
  exact ⟨old ++ new, m, by rw [hnew, ← hold, List.append_assoc], List.mem_append_right old hmem, hm⟩

theorem Delivered.before (h : Delivered o bs s t) (htu : t.trace <+: u.trace) : Delivered o bs s u := by
  obtain ⟨new, m, hnew, hmem, hm⟩ := h
  obtain ⟨more, hmore⟩ := htu
  exact ⟨new ++ more, m, by rw [← hmore, hnew, List.append_assoc], List.mem_append_left more hmem, hm⟩

/-- Feeding a frame delivers its Message to every registered observer (R192). -/
theorem delivered_feed (ho : o ∈ s.observers) (K : Classifier) (now : Time) (f : List Byte) :
    Delivered o (stripChecksum f) s (feed K now f s) := by
  have hmatch := ackMatch_frame K (decodedMessage f s.lastStamp now) { s with lastStamp := some now }
  have hdeliver : Delivered o (stripChecksum f)
      (ackMatch K (decodedMessage f s.lastStamp now) { s with lastStamp := some now }) (feed K now f s) := by
    refine ⟨_, decodedMessage f s.lastStamp now, rfl, List.mem_map.mpr ⟨o, ?_, rfl⟩, rfl⟩
    rw [mem_arrange, hmatch.observers]
    exact ho
  exact hdeliver.after hmatch.trace

end

/-- Whatever stands before a well-formed frame, the loop comes to the frame and feeds it. -/
theorem drain_delivers {K : Classifier} {now : Time} {o : ObserverId} {g behind : List Byte} (hg : WFF g = true)
    (hbehind : 254 ≤ behind.length) (pre : List Byte) (s : State) (hbuf : s.buf = pre ++ (g ++ behind))
    (ho : o ∈ s.observers) : Delivered o (stripChecksum g) s (drain K now s) := by
  induction hn : pre.length using Nat.strong_induction_on generalizing pre s with
  | _ n ih =>
    by_cases hpre : pre = []
    · have hj : judge s.buf = .accept g.length := by rw [hbuf, hpre, List.nil_append, judge_WFF hg]
      have hframe : s.buf.take g.length = g := by rw [hbuf, hpre, List.nil_append, List.take_left]
      rw [drain_accept hj, hframe]
      exact (delivered_feed (s := { s with buf := s.buf.drop g.length }) ho K now g).before
        (drain_busFrame K now _).trace
    · obtain ⟨b, body, hgb, -, hb, -⟩ := WFF_iff.mp hg
      obtain ⟨k, hk, hj⟩ := judge_stops_at_candidate (rest := body ++ behind) hpre hb
        (by rw [List.length_append]; omega)
      rw [← List.cons_append, ← hgb, ← hbuf] at hj
      have hdrop : s.buf.drop k = pre.drop k ++ (g ++ behind) := by rw [hbuf, List.drop_append_of_le_length hk]
      rcases hj with hj | hj
      · have hpos := (judge_discard hj).1
        rw [drain_discard hj]
        exact ih (n - k) (by omega) (pre.drop k) _ hdrop ho (by rw [List.length_drop, hn])
      · have hpos := (judge_accept hj).1
        have hfeed := feed_busFrame K now (s.buf.take k) { s with buf := s.buf.drop k }
        rw [drain_accept hj]
        refine (ih (n - k) (by omega) (pre.drop k) _ ?_ ?_ (by rw [List.length_drop, hn])).after hfeed.trace
        · rw [feed_buf, hdrop]
        · rw [hfeed.observers]
          exact ho

/-- Settles O32: the frame stands in the buffer behind what the buffer held and what came before it. -/
theorem goodFrameIsNeverLost : Obligations.GoodFrameIsNeverLost := by
  intro s before g behind now o hg hbehind ho
  obtain ⟨new, m, hnew, hmem, hm⟩ := drain_delivers (K := Config.K) (now := now) hg hbehind (s.buf ++ before)
    { s with buf := s.buf ++ (before ++ g ++ behind) } (by simp) ho
  exact ⟨_, new, m, rfl, hnew, hmem, hm⟩

end Sys2Proof.Machine
end

/-! # Proofs of the family 42_send_fsm: guarded transmits, the send machine's operations, its reactions to frames -/

section
/-! SUPPORT. Every `transmit` stands directly behind its `arm` (R172): on traces, then operation by operation. -/

namespace Sys2Proof.Machine

/-- Two guarded traces, one behind the other, are guarded: a guard is looked for in the same half. -/
theorem TransmitsGuarded.append {a b : List OutEvent} (ha : TransmitsGuarded a) (hb : TransmitsGuarded b) :
    TransmitsGuarded (a ++ b) := by
  intro i f hi
  by_cases hlt : i < a.length
  · rw [List.getElem?_append_left hlt] at hi
    obtain ⟨j, rfl, hj⟩ := ha i f hi
    exact ⟨j, rfl, (List.getElem?_append_left (Nat.lt_of_succ_lt hlt)).trans hj⟩
  · rw [List.getElem?_append_right (not_lt.mp hlt)] at hi
    obtain ⟨j, hij, hj⟩ := hb _ f hi
    exact ⟨a.length + j, by omega, by simpa [List.getElem?_append_right] using hj⟩

/-- Outputs without a `transmit` have nothing to guard. -/
theorem transmitsGuarded_of_silent {tr : List OutEvent} (h : ∀ f, .transmit f ∉ tr) : TransmitsGuarded tr :=
  fun _ f hi => absurd (List.mem_of_getElem? hi) (h f)

/-- The output pair that sends a frame: the long timeout counts the bytes transmitted (decisions D8, D24). -/
theorem transmitsGuarded_sendPair (m : Message) : TransmitsGuarded (sendPair m) := by
  have hlength : longTimeout m = timeout (appendChecksum m.bytes).length := by
    simp [longTimeout, byteCount, appendChecksum]
  intro i f hi
  match i with
  | 0 => cases hi
  | 1 =>
    cases hi
    exact ⟨0, rfl, congrArg (fun d => some (OutEvent.arm d)) hlength⟩
  | i + 2 => cases hi

theorem armAndTransmit_trace (m : Message) (s : State) : (armAndTransmit m s).trace = s.trace ++ sendPair m := by
  rw [armAndTransmit_eq]
  rfl

section
variable {s : State}

theorem TransmitsGuarded.armAndTransmit (h : TransmitsGuarded s.trace) (m : Message) :
    TransmitsGuarded (armAndTransmit m s).trace := by
  rw [armAndTransmit_trace]
  exact h.append (transmitsGuarded_sendPair m)

theorem TransmitsGuarded.arm (h : TransmitsGuarded s.trace) (d : Duration) : TransmitsGuarded (arm d s).trace :=
  h.append (transmitsGuarded_of_silent (by simp))

theorem TransmitsGuarded.cancel (h : TransmitsGuarded s.trace) : TransmitsGuarded (cancel s).trace := by
  rw [cancel_eq]
  refine h.append (transmitsGuarded_of_silent fun f => ?_)
  cases s.deadline <;> simp

theorem TransmitsGuarded.deliver (h : TransmitsGuarded s.trace) (m : Message) :
    TransmitsGuarded (deliver m s).trace :=
  h.append (transmitsGuarded_of_silent (by simp))

theorem TransmitsGuarded.startNext (h : TransmitsGuarded s.trace) : TransmitsGuarded (startNext s).trace := by
  rcases startNext_cases s with ⟨he, -⟩ | ⟨m, rest, -, -, he⟩ <;> rw [he]
  · exact h
  · exact TransmitsGuarded.armAndTransmit h m

theorem TransmitsGuarded.complete (h : TransmitsGuarded s.trace) : TransmitsGuarded (complete s).trace :=
  (TransmitsGuarded.cancel (s := { s with inFlight := none }) h).startNext

theorem TransmitsGuarded.ackMatch (h : TransmitsGuarded s.trace) (K : Classifier) (m : Message) :
    TransmitsGuarded (ackMatch K m s).trace := by
  rcases ackMatch_cases K m s with he | ⟨f, -, he | ⟨-, -, he⟩ | ⟨-, -, he⟩ | ⟨-, he⟩⟩ <;> rw [he]
  · exact h
  · exact h.complete
  · exact TransmitsGuarded.arm h _
  · exact TransmitsGuarded.arm h _
  · exact TransmitsGuarded.armAndTransmit h f.cur

theorem TransmitsGuarded.feed (h : TransmitsGuarded s.trace) (K : Classifier) (now : Time) (frame : List Byte) :
    TransmitsGuarded (feed K now frame s).trace :=
  (TransmitsGuarded.ackMatch (s := { s with lastStamp := some now }) h K _).deliver _

theorem TransmitsGuarded.expire (h : TransmitsGuarded s.trace) (f : InFlight) :
    TransmitsGuarded (expire f s).trace := by
  rcases expire_cases f s with ⟨-, he⟩ | ⟨-, he⟩ <;> rw [he]
  · exact TransmitsGuarded.startNext h
  · exact TransmitsGuarded.armAndTransmit h f.cur

end

/-- R172 is kept by everything a step is made of: only the pair of `armAndTransmit` transmits. -/
theorem transmitsGuarded_kept : KeptByOps fun s => TransmitsGuarded s.trace where
  environment _ _ h := h
  receive chunk now h := receiveWith_keeps (P := fun s => TransmitsGuarded s.trace) (fun _ _ h => h)
    (fun _ f _ h => h.feed Config.K now f) chunk h
  enqueue _ h := TransmitsGuarded.startNext h
  disarm _ h := h
  expire {s f} _ h := TransmitsGuarded.expire (s := { s with deadline := none }) h f
  detach h := TransmitsGuarded.cancel h
  addObserver _ h := h
  removeObserver _ h := h
  reset h := TransmitsGuarded.cancel h

/-- Settles O21: no operation transmits but behind the `arm` of the same frame. -/
theorem stepKeepsTransmitsGuarded : Obligations.StepKeepsTransmitsGuarded :=
  fun _ _ hs h => transmitsGuarded_kept.step h hs

end Sys2Proof.Machine
end

section
/-! SUPPORT. Each operation of the send machine as one update of the state, by the case it is in (R154 to R158,
R168). -/

namespace Sys2Proof.Machine

section
variable {s : State} {f : InFlight} {m q : Message} {rest : List Message} {d : Duration}

/-- `StartNext` on an idle machine with a queue, as one update (R155). -/
theorem startNext_idle_eq (hf : s.inFlight = none) (hq : s.queue = q :: rest) :
    startNext s = { s with
      queue := rest
      inFlight := some { cur := q, retry := retryInit, wait := .sending }
      deadline := some (longTimeout q)
      trace := s.trace ++ sendPair q } := by
  rw [startNext_idle hf hq, armAndTransmit_eq]
  rfl

theorem exec_enqueue_busy (hf : s.inFlight = some f) (m : Message) :
    exec (.enqueue m) s = .next { s with queue := s.queue ++ [m] } :=
  congrArg Host.Outcome.next (startNext_busy (s := { s with queue := s.queue ++ [m] }) hf)

/-- `enqueue(m)` on an idle machine sends the head `q` of the queue with `m` at its tail (R155, R156). -/
theorem exec_enqueue_idle (hf : s.inFlight = none) (hq : s.queue ++ [m] = q :: rest) :
    exec (.enqueue m) s = .next { s with
      queue := rest
      inFlight := some { cur := q, retry := retryInit, wait := .sending }
      deadline := some (longTimeout q)
      trace := s.trace ++ sendPair q } :=
  congrArg Host.Outcome.next (startNext_idle_eq (s := { s with queue := s.queue ++ [m] }) hf hq)

/-- `Complete` with nothing queued ends in an idle machine (R157). -/
theorem complete_empty_eq (hq : s.queue = []) :
    complete s = { s with
      inFlight := none
      deadline := none
      trace := s.trace ++ (if s.deadline.isSome then [OutEvent.cancel] else []) } := by
  rw [complete, startNext_empty (by rw [cancel_queue, hq]), cancel_eq]

/-- `Complete` with an entry queued sends it in the same operation (R157). -/
theorem complete_queued_eq (hq : s.queue = q :: rest) :
    complete s = { s with
      queue := rest
      inFlight := some { cur := q, retry := retryInit, wait := .sending }
      deadline := some (longTimeout q)
      trace := s.trace ++ (if s.deadline.isSome then [OutEvent.cancel] else []) ++ sendPair q } := by
  rw [complete, startNext_idle_eq (by rw [cancel_inFlight]) (by rw [cancel_queue, hq]), cancel_eq]

/-- `Resend()` as one update (R159). -/
theorem resend_eq (f : InFlight) (s : State) :
    resend f s = { s with
      inFlight := some { f with retry := retryInit }
      deadline := some (longTimeout f.cur)
      trace := s.trace ++ sendPair f.cur } :=
  armAndTransmit_eq f.cur { s with inFlight := some { f with retry := retryInit } }

theorem exec_timerExpiry_armed (hd : s.deadline = some d) (hf : s.inFlight = some f) :
    exec .timerExpiry s = .next (expire f { s with deadline := none }) := by
  rw [show exec .timerExpiry s = execTimerExpiry s from rfl]
  simp only [execTimerExpiry, hd, hf]

/-- A fired deadline with budget left costs one retry and sends the same bytes again (R158 (c)). -/
theorem exec_timerExpiry_retry (hd : s.deadline = some d) (hf : s.inFlight = some f) (hr : 1 ≤ f.retry) :
    exec .timerExpiry s = .next { s with
      inFlight := some { f with retry := f.retry - 1 }
      deadline := some (longTimeout f.cur)
      trace := s.trace ++ sendPair f.cur } := by
  rw [exec_timerExpiry_armed hd hf]
  rcases expire_cases f { s with deadline := none } with ⟨hr', -⟩ | ⟨-, he⟩
  · omega
  · rw [he, armAndTransmit_eq]
    rfl

/-- A fired deadline with no budget left abandons the entry (R158; decision D22). -/
theorem exec_timerExpiry_spent (hd : s.deadline = some d) (hf : s.inFlight = some f) (hr : f.retry ≤ 0) :
    exec .timerExpiry s = .next (startNext { s with inFlight := none, deadline := none }) := by
  rw [exec_timerExpiry_armed hd hf]
  rcases expire_cases f { s with deadline := none } with ⟨-, he⟩ | ⟨hr', -⟩
  · rw [he]
  · omega

theorem exec_timerExpiry_abandon (hd : s.deadline = some d) (hf : s.inFlight = some f) (hr : f.retry ≤ 0)
    (hq : s.queue = []) : exec .timerExpiry s = .next { s with inFlight := none, deadline := none } :=
  (exec_timerExpiry_spent hd hf hr).trans
    (congrArg Host.Outcome.next (startNext_empty (s := { s with inFlight := none, deadline := none }) hq))

theorem exec_timerExpiry_next (hd : s.deadline = some d) (hf : s.inFlight = some f) (hr : f.retry ≤ 0)
    (hq : s.queue = q :: rest) :
    exec .timerExpiry s = .next { s with
      queue := rest
      inFlight := some { cur := q, retry := retryInit, wait := .sending }
      deadline := some (longTimeout q)
      trace := s.trace ++ sendPair q } :=
  (exec_timerExpiry_spent hd hf hr).trans
    (congrArg Host.Outcome.next (startNext_idle_eq (s := { s with inFlight := none, deadline := none }) rfl hq))

end

/-- Settles O39: the idle machine with a queue is the one case in which `StartNext` acts. -/
theorem startNextTakesQueueHead : Obligations.StartNextTakesQueueHead := by
  refine ⟨fun s m rest hf hq => startNext_idle_eq hf hq, fun s h => ?_⟩
  rcases h with hst | hq
  · obtain ⟨f, hf⟩ := Option.ne_none_iff_exists'.mp (mt (st_eq_idle_iff s).mpr hst)
    exact startNext_busy hf
  · exact startNext_empty hq

/-- Settles O40: the Message joins the queue, and `StartNext` sends the head of what is then queued. -/
theorem enqueueResult : Obligations.EnqueueResult := by
  refine fun s m => ⟨fun f hf => exec_enqueue_busy hf m, fun hf hq => ?_, fun q rest hf hq => ?_⟩
  · rw [exec_enqueue_idle (q := m) (rest := []) hf (by rw [hq, List.nil_append]), ← hq]
    rfl
  · exact exec_enqueue_idle hf (by rw [hq, List.cons_append])

theorem shortTimeout_eq : shortTimeout = 6 / 833 := by
  norm_num [shortTimeout, timeout, shortByteCount, bitsPerByteOnWire, busRate, safetyFactor]

/-- Settles O41: the formula of R152 at the bytes of a Message and at the four of R153. -/
theorem timeoutValues : Obligations.TimeoutValues := by
  refine ⟨fun m => ?_, shortTimeout_eq⟩
  simp only [longTimeout, timeout, byteCount, bitsPerByteOnWire, busRate, safetyFactor]
  ring

/-- Settles O42: by what the queue holds. -/
theorem completeEndsSend : Obligations.CompleteEndsSend :=
  fun _ => ⟨complete_empty_eq, fun _ _ => complete_queued_eq⟩

/-- Settles O43: by what is armed, the budget and the queue. -/
theorem timerExpiryResult : Obligations.TimerExpiryResult :=
  fun _ => ⟨execTimerExpiry_unarmed, fun _ _ hd hf => ⟨exec_timerExpiry_retry hd hf,
    exec_timerExpiry_abandon hd hf, fun _ _ => exec_timerExpiry_next hd hf⟩⟩

/-- Settles O50: `detach` is `Cancel` on an emptied send machine. -/
theorem detachResult : Obligations.DetachResult :=
  fun s => congrArg Host.Outcome.next (cancel_eq { s with queue := [], inFlight := none })

/-- One expiry more, after some that went through. -/
theorem expiries_succ {n : Nat} {s t : State} (h : expiries n s = .next t) :
    expiries (n + 1) s = exec .timerExpiry t := by
  simp only [expiries, h]

/-- From a full budget with a deadline armed, 1 to 10 expiries in a row retransmit each time (R170). -/
theorem expiries_retry {s : State} {f : InFlight} {d : Duration} (hf : s.inFlight = some f) (hr : f.retry = 10)
    (hd : s.deadline = some d) {n : Nat} (hpos : 1 ≤ n) (hn : n ≤ 10) :
    expiries n s = .next { s with
      inFlight := some { f with retry := 10 - n }
      deadline := some (longTimeout f.cur)
      trace := s.trace ++ (List.replicate n (sendPair f.cur)).flatten } := by
  induction n, hpos using Nat.le_induction with
  | base =>
    rw [expiries_succ (n := 0) rfl, exec_timerExpiry_retry hd hf (by omega), hr]
    simp
  | succ n hpos ih =>
    have hbudget : (10 : Int) - (n + 1 : Nat) = 10 - n - 1 := by omega
    have hleft : (1 : Int) ≤ 10 - n := by omega
    rw [expiries_succ (ih (by omega)), exec_timerExpiry_retry rfl rfl hleft, hbudget, List.replicate_succ',
      List.flatten_concat, List.append_assoc]

/-- Settles O44: ten expiries use the budget up, and the eleventh finds none left. -/
theorem retryBound : Obligations.RetryBound := by
  intro s f d hf hr hd
  have hten := expiries_succ (expiries_retry hf hr hd (n := 10) (by omega) le_rfl)
  refine ⟨fun n hpos hn => expiries_retry hf hr hd hpos hn, fun hq => ?_, fun q rest hq => ?_⟩
  · exact hten.trans (exec_timerExpiry_abandon rfl rfl (by simp) hq)
  · exact hten.trans (exec_timerExpiry_next rfl rfl (by simp) hq)

end Sys2Proof.Machine
end

section
/-! SUPPORT. `AckMatch` by the cases of R159, and the good frame on an empty buffer that brings it about (R160 to
R167). -/

namespace Sys2Proof.Machine

section
variable {K : Classifier} {s : State} {fl : InFlight} {m : Message}

/-- The echo of an ordinary command completes its send (R160). -/
theorem ackMatch_echo_ordinary (hf : s.inFlight = some fl) (hecho : m.bytes = fl.cur.bytes)
    (hc : cmdClass K fl.cur.bytes = .ordinary) : ackMatch K m s = complete s := by
  simp only [ackMatch, hf, if_pos hecho, echo, hc]

/-- The awaiting state that the echo of a special command moves to (R161, R162). -/
def EchoMovesTo (K : Classifier) (bs : List Byte) (w : Wait) : Prop :=
  cmdClass K bs = .imm ∧ w = .awaitingDigitalPacketAck ∨ cmdClass K bs = .switchAck ∧ w = .awaitingSwitchAck

/-- The echo of a special command arms the short timeout and awaits the reply (R161, R162). -/
theorem ackMatch_echo_special {w : Wait} (hf : s.inFlight = some fl) (hecho : m.bytes = fl.cur.bytes)
    (hw : EchoMovesTo K fl.cur.bytes w) :
    ackMatch K m s = { s with
      inFlight := some { fl with wait := w }
      deadline := some (6 / 833)
      trace := s.trace ++ [.arm (6 / 833)] } := by
  rw [← shortTimeout_eq]
  simp only [ackMatch, hf, if_pos hecho]
  rcases hw with ⟨hc, rfl⟩ | ⟨hc, rfl⟩
  · simp only [echo, hc]
    rfl
  · simp only [echo, hc]
    rfl

/-- A Message that is no echo is judged as a reply (R159). -/
theorem ackMatch_reply (hf : s.inFlight = some fl) (hne : m.bytes ≠ fl.cur.bytes) :
    ackMatch K m s = matchReply K m fl s := by
  simp only [ackMatch, hf, if_neg hne]

/-- The bytes accept what the send waits on (R163, R165). -/
def Accepts (K : Classifier) (w : Wait) (bs : List Byte) : Prop :=
  w = .awaitingDigitalPacketAck ∧ K.isImmAccepted bs = true ∨ w = .awaitingSwitchAck ∧ K.isSwitchAccepted bs = true

/-- The bytes ask for what the send waits on to be sent again (R164, R166). -/
def Refuses (K : Classifier) (w : Wait) (bs : List Byte) : Prop :=
  w = .awaitingDigitalPacketAck ∧ K.isImmAccepted bs = false ∧ K.isImmBufferFull bs = true ∨
    w = .awaitingSwitchAck ∧ K.isSwitchAccepted bs = false ∧ K.isSwitchRejected bs = true

/-- The bytes are neither reply that the send waits on (R167). -/
def NoReply (K : Classifier) (w : Wait) (bs : List Byte) : Prop :=
  w = .sending ∨
    w = .awaitingDigitalPacketAck ∧ K.isImmAccepted bs = false ∧ K.isImmBufferFull bs = false ∨
    w = .awaitingSwitchAck ∧ K.isSwitchAccepted bs = false ∧ K.isSwitchRejected bs = false

/-- The accepting reply completes the send (R163, R165). -/
theorem ackMatch_accepts (hf : s.inFlight = some fl) (hne : m.bytes ≠ fl.cur.bytes) (h : Accepts K fl.wait m.bytes) :
    ackMatch K m s = complete s := by
  rw [ackMatch_reply hf hne]
  rcases h with ⟨hw, ha⟩ | ⟨hw, ha⟩
  · simp only [matchReply, hw, ha, if_true]
  · simp only [matchReply, hw, ha, if_true]

/-- The refusing reply refills the budget and sends the same bytes again (R164, R166). -/
theorem ackMatch_refuses (hf : s.inFlight = some fl) (hne : m.bytes ≠ fl.cur.bytes) (h : Refuses K fl.wait m.bytes) :
    ackMatch K m s = { s with
      inFlight := some { fl with retry := retryInit }
      deadline := some (longTimeout fl.cur)
      trace := s.trace ++ sendPair fl.cur } := by
  rw [ackMatch_reply hf hne, ← resend_eq]
  rcases h with ⟨hw, ha, hr⟩ | ⟨hw, ha, hr⟩
  · simp only [matchReply, hw, ha, hr, Bool.false_eq_true, if_false, if_true]
  · simp only [matchReply, hw, ha, hr, Bool.false_eq_true, if_false, if_true]

/-- A Message that is neither echo nor awaited reply leaves the send machine alone (R167). -/
theorem ackMatch_noReply (hf : s.inFlight = some fl) (hne : m.bytes ≠ fl.cur.bytes) (h : NoReply K fl.wait m.bytes) :
    ackMatch K m s = s := by
  rw [ackMatch_reply hf hne]
  rcases h with hw | ⟨hw, ha, hr⟩ | ⟨hw, ha, hr⟩
  · simp only [matchReply, hw]
  · simp only [matchReply, hw, ha, hr, Bool.false_eq_true, if_false]
  · simp only [matchReply, hw, ha, hr, Bool.false_eq_true, if_false]

end

/-- A good frame on an empty buffer is fed on, under every classifier (R127). -/
theorem receiveWith_WFF {K : Classifier} {now : Time} {s : State} {g : List Byte} (hbuf : s.buf = [])
    (hg : WFF g = true) : receiveWith K g now s = feed K now g s := by
  obtain ⟨-, -, -, -, -, -, -, hok⟩ := WFF_iff.mp hg
  exact (receiveWith_cleanFrame hbuf (cleanFrame_of_WFF hg)).trans (if_pos hok)

/-- A good frame on an empty buffer: what `AckMatch` makes of it, then its delivery. -/
theorem receiveWith_of_ackMatch {K : Classifier} {now : Time} {s t : State} {g : List Byte} (hbuf : s.buf = [])
    (hg : WFF g = true)
    (h : ackMatch K (decodedMessage g s.lastStamp now) { s with lastStamp := some now } = t) :
    receiveWith K g now s = deliver (decodedMessage g s.lastStamp now) t :=
  (receiveWith_WFF hbuf hg).trans (congrArg (deliver _) h)

/-- Settles O45: the Message of the frame is the echo. -/
theorem echoCompletesOrdinarySend : Obligations.EchoCompletesOrdinarySend :=
  fun _ _ _ _ _ hbuf hg hf hecho hc =>
    ⟨_, rfl, receiveWith_of_ackMatch hbuf hg (ackMatch_echo_ordinary hf hecho hc)⟩

/-- Settles O46: the Message of the frame is the echo. -/
theorem echoOfSpecialCommandAwaitsReply : Obligations.EchoOfSpecialCommandAwaitsReply :=
  fun _ _ _ _ _ _ hbuf hg hf hecho hw => receiveWith_of_ackMatch hbuf hg (ackMatch_echo_special hf hecho hw)

/-- Settles O47: the Message of the frame is an accepting reply. -/
theorem acceptedReplyCompletesSend : Obligations.AcceptedReplyCompletesSend :=
  fun _ _ _ _ _ hbuf hg hf hne hacc =>
    ⟨_, rfl, receiveWith_of_ackMatch hbuf hg (ackMatch_accepts hf hne hacc)⟩

/-- Settles O48: the Message of the frame is a reply that makes the send machine resend. -/
theorem busyReplyRefillsAndRetransmits : Obligations.BusyReplyRefillsAndRetransmits :=
  fun _ _ _ _ _ hbuf hg hf hne hbusy => receiveWith_of_ackMatch hbuf hg (ackMatch_refuses hf hne hbusy)

/-- Settles O49: with nothing in flight no Message is looked at, and one that is no reply changes nothing. -/
theorem otherMessagesAreIgnored : Obligations.OtherMessagesAreIgnored := by
  intro K s g now hbuf hg h
  refine ⟨_, rfl, receiveWith_of_ackMatch hbuf hg ?_⟩
  rcases h with hf | ⟨fl, hf, hne, hno⟩
  · exact ackMatch_idle hf
  · exact ackMatch_noReply hf hne hno

end Sys2Proof.Machine
end

section
/-! SUPPORT. SGL's scenario (R171), frame by frame: what is in flight, what is queued, and the send machine's
outputs. -/

namespace Sys2Proof.Machine

theorem sendEvents_append (a b : List OutEvent) : sendEvents (a ++ b) = sendEvents a ++ sendEvents b :=
  List.filter_append a b

/-- A delivery is no output of the send machine. -/
theorem sendEvents_deliver (m : Message) (s : State) : sendEvents (deliver m s).trace = sendEvents s.trace := by
  simp [sendEvents, List.filter_map, Function.comp_def]

/-- Between two frames: an empty buffer, `fl` in flight under an armed deadline, `queue` waiting, and `outs` put out by
the send machine so far. -/
structure Underway (fl : InFlight) (queue : List Message) (outs : List OutEvent) (s : State) : Prop where
  buf : s.buf = []
  flight : s.inFlight = some fl
  queue : s.queue = queue
  armed : s.deadline.isSome = true
  outs : sendEvents s.trace = outs

section
variable {K : Classifier} {fl : InFlight} {queue : List Message} {outs : List OutEvent} {s : State} {g : List Byte}

/-- A Message sent from an idle machine with an empty queue (R155, R156). -/
theorem underway_enqueue (x : Message) (hbuf : s.buf = []) (hf : s.inFlight = none) (hq : s.queue = []) :
    ∃ t, exec (.enqueue x) s = .next t ∧
      Underway { cur := x, retry := retryInit, wait := .sending } [] (sendEvents s.trace ++ sendPair x) t :=
  ⟨_, exec_enqueue_idle hf (by rw [hq, List.nil_append]), hbuf, rfl, rfl, rfl, sendEvents_append _ _⟩

/-- A Message enqueued behind a send joins the queue (R156). -/
theorem Underway.enqueue (h : Underway fl queue outs s) (y : Message) :
    ∃ t, exec (.enqueue y) s = .next t ∧ Underway fl (queue ++ [y]) outs t :=
  ⟨_, exec_enqueue_busy h.flight y, h.buf, h.flight, congrArg (· ++ [y]) h.queue, h.armed, h.outs⟩

/-- The echo of a "send packet immediate" command (R161). -/
theorem Underway.echo (h : Underway fl queue outs s) (hc : cmdClass K fl.cur.bytes = .imm)
    (hx : WF fl.cur.bytes = true) (now : Time) :
    Underway { fl with wait := .awaitingDigitalPacketAck } queue (outs ++ [.arm (6 / 833)])
      (receiveWith K (appendChecksum fl.cur.bytes) now s) := by
  rw [echoOfSpecialCommandAwaitsReply K s fl _ now _ h.buf hx h.flight List.dropLast_concat (.inl ⟨hc, rfl⟩)]
  refine ⟨h.buf, rfl, h.queue, rfl, ?_⟩
  rw [sendEvents_deliver, sendEvents_append, h.outs]
  rfl

/-- A reply that makes the send machine resend (R164, R166). -/
theorem Underway.refused (h : Underway fl queue outs s) (hg : WFF g = true) (hne : g.dropLast ≠ fl.cur.bytes)
    (hr : Refuses K fl.wait g.dropLast) (now : Time) :
    Underway { fl with retry := retryInit } queue (outs ++ sendPair fl.cur) (receiveWith K g now s) := by
  rw [busyReplyRefillsAndRetransmits K s fl g now h.buf hg h.flight hne hr]
  refine ⟨h.buf, rfl, h.queue, rfl, ?_⟩
  rw [sendEvents_deliver, sendEvents_append, h.outs]
  rfl

/-- The accepting reply with nothing queued ends in an idle machine (R157, R163). -/
theorem Underway.accepted_empty (h : Underway fl [] outs s) (hg : WFF g = true) (hne : g.dropLast ≠ fl.cur.bytes)
    (ha : Accepts K fl.wait g.dropLast) (now : Time) :
    (receiveWith K g now s).inFlight = none ∧ (receiveWith K g now s).queue = [] ∧
      (receiveWith K g now s).deadline = none ∧
      sendEvents (receiveWith K g now s).trace = outs ++ [.cancel] := by
  obtain ⟨m, -, he⟩ := acceptedReplyCompletesSend K s fl g now h.buf hg h.flight hne ha
  rw [he, complete_empty_eq (s := { s with lastStamp := some now }) h.queue]
  refine ⟨rfl, h.queue, rfl, ?_⟩
  rw [sendEvents_deliver, sendEvents_append, h.outs, if_pos h.armed]
  rfl

/-- The accepting reply with `y` queued sends `y` (R157, R163). -/
theorem Underway.accepted_queued {y : Message} {rest : List Message} (h : Underway fl (y :: rest) outs s)
    (hg : WFF g = true) (hne : g.dropLast ≠ fl.cur.bytes) (ha : Accepts K fl.wait g.dropLast) (now : Time) :
    Underway { cur := y, retry := retryInit, wait := .sending } rest (outs ++ [.cancel] ++ sendPair y)
      (receiveWith K g now s) := by
  obtain ⟨m, -, he⟩ := acceptedReplyCompletesSend K s fl g now h.buf hg h.flight hne ha
  rw [he, complete_queued_eq (s := { s with lastStamp := some now }) h.queue]
  refine ⟨h.buf, rfl, rfl, rfl, ?_⟩
  rw [sendEvents_deliver, sendEvents_append, sendEvents_append, h.outs, if_pos h.armed]
  rfl

/-- Nothing, or one more echo of the command whose reply is awaited: it arms the short timeout anew (decision D12). -/
theorem Underway.echo_again (h : Underway fl queue outs s) (hw : fl.wait = .awaitingDigitalPacketAck)
    (hc : cmdClass K fl.cur.bytes = .imm) (hx : WF fl.cur.bytes = true) {again : List Byte}
    (hagain : again = [] ∨ again = appendChecksum fl.cur.bytes) (now : Time) :
    Underway fl queue (outs ++ if again = [] then [] else [.arm (6 / 833)]) (receiveWith K again now s) := by
  rcases hagain with rfl | rfl
  · rw [receiveWith_nil_of_restForm (.inl h.buf), if_pos rfl, List.append_nil]
    exact h
  · have hfl : { fl with wait := .awaitingDigitalPacketAck } = fl := by rw [← hw]
    have hecho := h.echo hc hx now
    have hne : appendChecksum fl.cur.bytes ≠ [] := List.concat_ne_nil _ _
    rw [hfl] at hecho
    rwa [if_neg hne]

end

/-- Settles O51: the same frames reach the accepting reply with nothing queued and with `y` queued. -/
theorem scenarioSendEchoFullAccepted : Obligations.ScenarioSendEchoFullAccepted := by
  intro K s x full acc again t1 t2 t3 t4 hbuf hf hq hc hx hfull hacc hfullne hfulla hfullb haccne hacca hagain
  have toReply {queue : List Message} {outs : List OutEvent} {u : State}
      (h : Underway { cur := x, retry := retryInit, wait := .sending } queue outs u) :
      Underway { cur := x, retry := retryInit, wait := .awaitingDigitalPacketAck } queue
        (outs ++ [.arm (6 / 833)] ++ sendPair x ++ if again = [] then [] else [.arm (6 / 833)])
        (receiveWith K again t3 (receiveWith K full t2 (receiveWith K (appendChecksum x.bytes) t1 u))) :=
    ((h.echo hc hx t1).refused hfull hfullne (.inl ⟨rfl, hfulla, hfullb⟩) t2).echo_again rfl hc hx hagain t3
  have haccept : Accepts K .awaitingDigitalPacketAck acc.dropLast := .inl ⟨rfl, hacca⟩
  obtain ⟨s1, he1, h1⟩ := underway_enqueue x hbuf hf hq
  obtain ⟨hflight, hqueue, hdeadline, houts⟩ := (toReply h1).accepted_empty hacc haccne haccept t4
  refine ⟨s1, _, he1, fun _ => rfl, ⟨(st_eq_idle_iff _).mpr hflight, hqueue, hdeadline, houts⟩, fun y => ?_⟩
  obtain ⟨s2, he2, h2⟩ := h1.enqueue y
  have hy := (toReply h2).accepted_queued hacc haccne haccept t4
  refine ⟨s2, he2, ?_, ?_, hy.queue, hy.outs⟩
  · rw [State.st, hy.flight]
    rfl
  · rw [State.cur, hy.flight]
    rfl

end Sys2Proof.Machine
end

/-! # Proofs of the family 43_observers: registration, delivery, the order of delivery -/

section
/-! SUPPORT. What the observer set holds after a registration, and the places that give a wanted delivery order. -/

namespace Sys2Proof.Machine

/-- `observers ∪ {o}` as a set (R190). -/
theorem mem_addId {x o : ObserverId} {os : List ObserverId} : x ∈ addId o os ↔ x = o ∨ x ∈ os := by
  by_cases ho : o ∈ os
  · rw [addId_of_mem ho]
    exact ⟨.inr, fun h => h.elim (fun hx => hx ▸ ho) id⟩
  · rw [addId, if_neg ho]
    exact mem_insertId

/-- `observers \ {o}` as a set (R191). -/
theorem mem_removeId {x o : ObserverId} {os : List ObserverId} : x ∈ removeId o os ↔ x ≠ o ∧ x ∈ os := by
  rw [removeId, List.mem_filter, decide_eq_true_iff, and_comm]

/-- Settles O56: each operation puts the set it computes in the place of the old one. -/
theorem registrationResult : Obligations.RegistrationResult := fun s o =>
  ⟨addId o s.observers, removeId o s.observers, rfl, fun _ => mem_addId, addId_rising, rfl, fun _ => mem_removeId,
    removeId_rising⟩

/-- Settles O57: `AckMatch` leaves the observers alone, so the order drawn after it is one of those registered before. -/
theorem deliverReachesEachObserverOnce : Obligations.DeliverReachesEachObserverOnce := by
  intro K s g now hbuf hg
  let m := decodedMessage g s.lastStamp now
  let u := ackMatch K m { s with lastStamp := some now }
  have hobservers : u.observers = s.observers := (ackMatch_frame K m _).observers
  have horder : (arrange (Config.deliverSlot u.draws) u.observers).Perm s.observers := hobservers ▸ arrange_perm _ _
  exact ⟨u, _, rfl, horder, receiveWith_of_ackMatch hbuf hg rfl⟩

section
variable {α : Type}

/-- The place `front.length` is the one between `front` and what is behind it. -/
theorem insertAt_length (x : α) (front behind : List α) :
    insertAt x (front ++ behind) front.length = front ++ x :: behind := by
  induction front with
  | nil => cases behind <;> rfl
  | cons y ys ih => exact congrArg (y :: ·) ih

/-- An order reads the places below the length of the list only. -/
theorem arrange_congr {slot slot' : Nat → Nat} {l : List α} (h : ∀ n < l.length, slot n = slot' n) :
    arrange slot l = arrange slot' l := by
  induction l with
  | nil => rfl
  | cons x xs ih =>
    have htail : arrange slot xs = arrange slot' xs := ih fun n hn => h n (Nat.lt_succ_of_lt hn)
    have hhead : slot xs.length = slot' xs.length := h _ (Nat.lt_succ_self _)
    rw [arrange, arrange, htail, hhead]

/-- Every permutation of a list is one of its orders: remove the head from the permutation, find the places of the rest,
and give the head the place it was removed from. -/
theorem exists_arrange_eq_of_perm {l p : List α} (h : p.Perm l) : ∃ slot : Nat → Nat, arrange slot l = p := by
  induction l generalizing p with
  | nil => exact ⟨id, h.eq_nil.symm⟩
  | cons x xs ih =>
    obtain ⟨front, behind, rfl⟩ := List.append_of_mem (h.mem_iff.mpr List.mem_cons_self)
    obtain ⟨slot, hslot⟩ := ih (List.perm_middle.symm.trans h).cons_inv
    refine ⟨Function.update slot xs.length front.length, ?_⟩
    have htail : arrange (Function.update slot xs.length front.length) xs = front ++ behind :=
      (arrange_congr fun n hn => Function.update_of_ne hn.ne _ _).trans hslot
    rw [arrange, htail, Function.update_self, insertAt_length]

end

/-- Settles O58, by induction on the observers: places for the wanted order are built up from the last observer on. -/
theorem everyDeliveryOrderIsPossible : Obligations.EveryDeliveryOrderIsPossible := fun _ _ =>
  exists_arrange_eq_of_perm

end Sys2Proof.Machine
end

/-! # Proofs of the family 60_exceptions: a bad checksum has no effect, and no instruction stops the block -/

section
/-! SUPPORT. What `receive` makes of a whole clean frame whose checksum is wrong (R201). -/

namespace Sys2Proof.Machine

/-- A whole clean frame with a bad checksum in front of a chunk makes no difference: one pass discards all of it (R126). -/
theorem receiveWith_badFrame {K : Classifier} {now : Time} {s : State} {w : List Byte} (hbuf : s.buf = [])
    (hw : CleanFrame w) (hbad : isChecksumOK w = false) (rest : List Byte) :
    receiveWith K (w ++ rest) now s = receiveWith K rest now s := by
  have hpass : judge (w ++ rest) = .discard w.length := by rw [judge_cleanFrame hw, hbad]; rfl
  rw [receiveWith_discard hbuf hpass, List.drop_left]

/-- Settles O29: such a candidate is a clean frame, and with nothing behind it the loop returns on the empty buffer. -/
theorem badChecksumFrameIsDropped : Obligations.BadChecksumFrameIsDropped := by
  intro s b body rest now hbuf hb hclean _ hL hbad
  have hframe : CleanFrame (b :: body) := ⟨b, body, rfl, hb, hclean, hL⟩
  refine ⟨congrArg Host.Outcome.next ?_, congrArg Host.Outcome.next (receiveWith_badFrame hbuf hframe hbad rest)⟩
  calc receiveWith Config.K (b :: body) now s
      = receiveWith Config.K [] now s := by simpa using receiveWith_badFrame hbuf hframe hbad []
    _ = s := receiveWith_nil_of_restForm (.inl hbuf)

/-- Settles O14: a `receive` ends in a state, and so does each of the six other entry points; only `timerExpiry` tells
cases apart. -/
theorem everyInstructionCompletes : Obligations.EveryInstructionCompletes := by
  intro i s
  rcases exec_cases i s with ⟨w, now, he, -⟩ | ⟨m, rfl⟩ | rfl | rfl | ⟨o, rfl⟩ | ⟨o, rfl⟩ | rfl
  · exact ⟨_, he⟩
  · exact ⟨_, rfl⟩
  · obtain ⟨t, he, -⟩ := exec_timerExpiry_serves s
    exact ⟨t, he⟩
  · exact ⟨_, rfl⟩
  · exact ⟨_, rfl⟩
  · exact ⟨_, rfl⟩
  · exact ⟨_, rfl⟩

end Sys2Proof.Machine
end

/-! # Proofs of the family 70_reset_and_hazards: the schedule, reset(), what the clock decides, hazards of a send -/

section
/-! SUPPORT. What a step makes of the schedule, what reset() leaves, and what leaves an idle machine idle (R230, R241,
R244). -/

namespace Sys2Proof.Machine

/-- Settles O33: two such states stay such through every pass of the loop. -/
theorem clockNeverDecides : Obligations.ClockNeverDecides :=
  fun _ _ chunk _ _ h => ⟨_, _, rfl, rfl, receiveWith_untimed chunk h⟩

/-- Settles O13: by what the fetch finds at the head of the schedule. -/
theorem stepFollowsSchedule : Obligations.StepFollowsSchedule := by
  refine ⟨fun s i later hcall => ?_, fun s now bytes later r hwire hd => step_rejected hwire hd, fun s hempty => ?_,
    fun s ops later hoverlapped => ?_, fun s op inner later hreentrant => ?_⟩
  · simp only [step, fetch, hcall]
  · simp only [step, fetch, hempty]
  · simp only [step, fetch, hoverlapped]
  · simp only [step, fetch, hreentrant]

/-- Settles O17: reset() is `Cancel` on a state whose other elements have been cleared. -/
theorem resetOperationResult : Obligations.ResetOperationResult := fun s =>
  congrArg Host.Outcome.next
    (cancel_eq { s with buf := [], lastStamp := none, queue := [], inFlight := none, observers := [] })

/-- Settles O54: bytes from the bus and an expiry leave an idle machine as it is, the other entry points leave nothing
in flight and nothing queued. -/
theorem idleIsLeftByEnqueueOnly : Obligations.IdleIsLeftByEnqueueOnly := by
  intro i s hf hq hi
  rcases exec_cases i s with ⟨w, now, he, -⟩ | ⟨m, rfl⟩ | rfl | rfl | ⟨o, rfl⟩ | ⟨o, rfl⟩ | rfl
  · obtain ⟨hqueue, hflight, -⟩ := sendPart_eq_iff.mp ((receiveWith_busFrame Config.K w now s).idle hf)
    exact ⟨_, he, hflight.trans hf, hqueue.trans hq⟩
  · exact absurd rfl (hi m)
  · rcases exec_timerExpiry_cases s with he | ⟨-, he⟩ | ⟨f, hsome, -⟩
    · exact ⟨s, he, hf, hq⟩
    · exact ⟨_, he, hf, hq⟩
    · rw [hf] at hsome
      cases hsome
  · exact ⟨_, rfl, cancel_inFlight _, cancel_queue _⟩
  · exact ⟨_, rfl, hf, hq⟩
  · exact ⟨_, rfl, hf, hq⟩
  · exact ⟨_, rfl, cancel_inFlight _, cancel_queue _⟩

end Sys2Proof.Machine
end

section
/-! SUPPORT. A send that is answered "buffer full" again and again (R236). -/

namespace Sys2Proof.Machine

section
variable {K : Classifier} {fl : InFlight} {s : State} {g : List Byte}

/-- A refusing reply leaves the send under way with a full budget, whether or not a deadline was armed before it (R164,
R166). -/
theorem underway_refused (hbuf : s.buf = []) (hf : s.inFlight = some fl) (hg : WFF g = true)
    (hne : g.dropLast ≠ fl.cur.bytes) (hr : Refuses K fl.wait g.dropLast) (now : Time) :
    Underway { fl with retry := retryInit } s.queue (sendEvents s.trace ++ sendPair fl.cur)
      (receiveWith K g now s) := by
  rw [busyReplyRefillsAndRetransmits K s fl g now hbuf hg hf hne hr]
  refine ⟨hbuf, rfl, rfl, rfl, ?_⟩
  rw [sendEvents_deliver, sendEvents_append]
  rfl

/-- By induction on their number: refusing replies in a row leave the send under way with a full budget, one
retransmission each (R236). -/
theorem underway_refused_replicate (hbuf : s.buf = []) (hf : s.inFlight = some fl) (hg : WFF g = true)
    (hne : g.dropLast ≠ fl.cur.bytes) (hr : Refuses K fl.wait g.dropLast) (now : Time) {n : Nat} (hn : 1 ≤ n) :
    Underway { fl with retry := retryInit } s.queue
      (sendEvents s.trace ++ (List.replicate n (sendPair fl.cur)).flatten)
      (receiveWith K (List.replicate n g).flatten now s) := by
  induction n, hn using Nat.le_induction with
  | base => simpa using underway_refused hbuf hf hg hne hr now
  | succ n _ ih =>
    simp only [List.replicate_succ', List.flatten_concat, receiveWith_append, ← List.append_assoc]
    exact ih.refused hg hne hr now

end

/-- Settles O52: every reply finds the send as the one before it left it. -/
theorem busyRepliesAreUnbounded : Obligations.BusyRepliesAreUnbounded := by
  intro K s fl g now n hbuf hg hf hne hw ha hb hn
  have h := underway_refused_replicate hbuf hf hg hne (.inl ⟨hw, ha, hb⟩) now hn
  exact ⟨_, rfl, h.flight, h.queue, h.buf, h.outs⟩

end Sys2Proof.Machine
end

section
/-! SUPPORT. A send whose Message is not well formed: no Message the reassembler emits is its echo (R133, R243). -/

namespace Sys2Proof.Machine

/-- From `s` to `t` the queue, the in-flight record and the deadline stay, and only deliveries are put out. -/
structure OnlyDelivers (s t : State) : Prop where
  send : t.sendPart = s.sendPart
  outputs : ∃ new, t.trace = s.trace ++ new ∧ ∀ e ∈ new, ∃ o m, e = .deliver o m

theorem OnlyDelivers.refl (s : State) : OnlyDelivers s s := ⟨rfl, [], by simp⟩

theorem OnlyDelivers.deliver {s t : State} (h : OnlyDelivers s t) (m : Message) :
    OnlyDelivers s (deliver m t) := by
  obtain ⟨new, hnew, honly⟩ := h.outputs
  refine ⟨h.send, _, by rw [deliver_trace, hnew, List.append_assoc], fun e he => ?_⟩
  rcases List.mem_append.mp he with he | he
  · exact honly e he
  · obtain ⟨o, -, rfl⟩ := List.mem_map.mp he
    exact ⟨o, m, rfl⟩

/-- A well-formed frame is not the echo of an ill-formed send, and while `sending` no reply is looked for: it is stamped
and delivered (R127, R167). -/
theorem feed_illFormed_sending {K : Classifier} {now : Time} {f : List Byte} {s : State} {fl : InFlight}
    (hf : s.inFlight = some fl) (hw : fl.wait = .sending) (hill : WF fl.cur.bytes = false) (hframe : WFF f = true) :
    feed K now f s = Machine.deliver (decodedMessage f s.lastStamp now) { s with lastStamp := some now } := by
  have hne : stripChecksum f ≠ fl.cur.bytes := fun h => by simp [← h, WF_stripChecksum hframe] at hill
  exact congrArg (Machine.deliver _) (ackMatch_noReply (s := { s with lastStamp := some now }) hf hne (.inl hw))

/-- Whatever is received while an ill-formed Message is in flight in `sending`, only deliveries come of it (R243). -/
theorem receiveWith_illFormed_sending {K : Classifier} {s : State} {fl : InFlight} (hf : s.inFlight = some fl)
    (hw : fl.wait = .sending) (hill : WF fl.cur.bytes = false) (chunk : List Byte) (now : Time) :
    OnlyDelivers s (receiveWith K chunk now s) := by
  refine receiveWith_keeps (P := OnlyDelivers s) (fun _ _ h => ⟨h.send, h.outputs⟩) (fun u f hframe h => ?_) chunk
    (.refl s)
  obtain ⟨-, hflight, -⟩ := sendPart_eq_iff.mp h.send
  rw [feed_illFormed_sending (hflight.trans hf) hw hill hframe]
  exact OnlyDelivers.deliver (t := { u with lastStamp := some now }) ⟨h.send, h.outputs⟩ _

/-- Settles O53: field by field, what such a `receive` leaves. -/
theorem illFormedSendIsNeverConfirmed : Obligations.IllFormedSendIsNeverConfirmed := by
  intro s fl chunk now hf hw hill
  have h := receiveWith_illFormed_sending (K := Config.K) hf hw hill chunk now
  obtain ⟨hqueue, hflight, hdeadline⟩ := sendPart_eq_iff.mp h.send
  obtain ⟨new, hnew, honly⟩ := h.outputs
  exact ⟨_, new, rfl, hflight, hdeadline, hqueue, hnew, honly⟩

end Sys2Proof.Machine
end
